-- ==== Sys2Proof/Word.lean ====
section
/-! DEFINITION. The word types of the unit (spec/00_scope.md R6, R8): bytes, 64-bit words, and the
window of eight bytes. -/

namespace Sys2Proof

/-- A byte: a lane of a word, an `IN[i]` or `OUT[i]` port, a command word (R8). -/
abbrev Byte := BitVec 8

/-- The 64-bit word of the ports `A`, `B`, `RES` and of every intermediate value (R6 `W`, R8). -/
abbrev Word := BitVec 64

/-- Eight bytes, byte 0 first: `IN[0..7]` or `OUT[0..7]` (R6 `NB`, R16, R17). -/
abbrev Window := Vector Byte 8

end Sys2Proof
end

