-- ==== Sys2Proof/Syntax.lean ====
section
/-! DEFINITION. The instructions of spec/opcode_table.json, one constructor a row, and the command
word's two fields. No constructor has an operand: no command has an operand field, the operands
come from the ports whole (spec/30_encoding.md R44, R47). -/

namespace Sys2Proof

/-- The five operations (R3, R45). -/
inductive Instr where
  /-- EXTRACT, R61 -/
  | extract
  /-- DEPOSIT, R62 -/
  | deposit
  /-- DECODE64, R63 -/
  | decode64
  /-- DECODE32, R64 -/
  | decode32
  /-- ENCODE, R68 -/
  | encode
  deriving DecidableEq, Repr

/-- The fields of a command word (R44): `OP` is `CMD[3:0]`, `RSV` is `CMD[7:4]`. -/
structure Command where
  op : BitVec 4
  rsv : BitVec 4
  deriving DecidableEq, Repr

/-- Why a command word selects no operation (R46). All illegal words behave alike; the name only says
which of the two conditions of R46 was met, `RSV` being looked at first. -/
inductive Reject where
  /-- `RSV ≠ 0` -/
  | reservedBits
  /-- `RSV = 0` and `OP` in 0x5..0xF -/
  | reservedOpcode
  deriving DecidableEq, Repr

end Sys2Proof
end

