-- ==== Sys2Proof/WellFormed.lean ====
section
/-! DEFINITION. Which command words are well formed (spec/30_encoding.md R45). An `Instr` carries no
operand, so every `Instr` is well formed; the check is on the command word's fields. -/

namespace Sys2Proof

/-- "A command is legal exactly when `RSV = 0` and `OP ≤ 4`" (R45). -/
def Command.wf (c : Command) : Bool := c.rsv == 0 && decide (c.op.toNat ≤ 4)

end Sys2Proof
end

