-- ==== Sys2Proof/Decode.lean ====
section
/-! DEFINITION. The command decoder and encoder (spec/30_encoding.md R44 to R46), and the reading of a
row of spec/opcode_table.json. -/

namespace Sys2Proof

/-- The two fields of a command word (R44). -/
def Command.ofByte (cmd : Byte) : Command :=
  { op := cmd.extractLsb' 0 4, rsv := cmd.extractLsb' 4 4 }

/-- The command word with these fields (R44). -/
def Command.toByte (c : Command) : Byte := c.rsv ++ c.op

/-- The operation an `OP` value selects (R45). -/
def instrOfOp (op : BitVec 4) : Except Reject Instr :=
  match op.toNat with
  | 0 => .ok .extract
  | 1 => .ok .deposit
  | 2 => .ok .decode64
  | 3 => .ok .decode32
  | 4 => .ok .encode
  | _ => .error .reservedOpcode

/-- The operation a command word selects, or why it selects none (R45, R46). -/
def decode (cmd : Byte) : Except Reject Instr :=
  let c := Command.ofByte cmd
  if c.rsv = 0 then instrOfOp c.op else .error .reservedBits

/-- The `OP` value of an operation (R45). -/
def Instr.op : Instr → BitVec 4
  | .extract => 0x0
  | .deposit => 0x1
  | .decode64 => 0x2
  | .decode32 => 0x3
  | .encode => 0x4

/-- The fields of an operation's command word, `RSV = 0` (R44, R45). -/
def Instr.command (i : Instr) : Command := { op := i.op, rsv := 0 }

/-- The command word of an operation (R45). -/
def encode (i : Instr) : Byte := i.command.toByte

/-- The instruction the decoder reads from a table row's bits: a command is exactly one 8-bit word
(R44), so a row with a bit set above bit 7 is no command. -/
def decodeTableWord (nbits w : Nat) : Option Instr :=
  let v := w % 2 ^ nbits
  if v < 256 then (decode (BitVec.ofNat 8 v)).toOption else none

end Sys2Proof
end

