-- ==== Sys2Proof/Machine/Flags.lean ====
section
/-! DEFINITION. The continuation flags and the fixed ladders of the varint format
(spec/30_encoding.md R49, R52 to R54). The unit has no flags register (spec/10_state.md R23): the flags
here are bit 7 of each byte of an encoded word. The ladders are constants, not loadable tables
(spec/70_reset_and_hazards.md R95). -/

namespace Sys2Proof.Machine

/-- `CONTINUATION_MASK`, bit 7 of every lane (R49). -/
def continuationMask : Word := 0x8080808080808080

/-- `VMAX = 2^56 - 1`, the largest encodable value (R6, R50). -/
def vmax : Word := 0xFFFFFFFFFFFFFF

/-- How many of the bits `0..n-1` of `v` are 1. -/
def rank (v : Word) : Nat → Nat
  | 0 => 0
  | n + 1 => rank v n + (v.getLsbD n).toNat

/-- `popcount(v)` (R9). -/
def popcount (v : Word) : Nat := rank v 64

/-- `lowmask(n) = 2^n - 1` (R9). -/
def lowmask (n : Nat) : Word := BitVec.ofNat 64 (2 ^ n - 1)

/-- `p = popcount(w & CONTINUATION_MASK)`, the decoder's `activeMinusOne`: a global count, not a scan
for the first clear flag (R63, R65). -/
def flagCount (w : Word) : Nat := popcount (w &&& continuationMask)

/-- `pattern` repeated in lanes `0..n-1`, zero elsewhere (R49). -/
def lanes (pattern : Byte) : Nat → Word
  | 0 => 0
  | n + 1 => lanes pattern n ||| pattern.setWidth 64 <<< (8 * n)

/-- `SEL[k]`, the payload selector for popcount `k`: 0x7F in lanes `0..k` (R52, k = 0..7). The
decoders use it for no other `k` (log 17). -/
def sel (k : Nat) : Word := lanes 0x7F (k + 1)

/-- `PM[L] = SEL[L-1]`, the encoder's payload mask (R53, L = 1..8). -/
def pm (l : Nat) : Word := sel (l - 1)

/-- `TF[L]`: 0x80 in lanes `0..L-2`, the flag of every active byte but the last (R53, L = 1..8, as
spec/90_conflicts.md C1 corrects it). -/
def tf (l : Nat) : Word := lanes 0x80 (l - 1)

/-- A row of the encoder's ladder: the values `lo..hi` have this encoded length (R53). -/
structure LadderRow where
  length : Nat
  lo : Nat
  hi : Nat
  deriving DecidableEq, Repr

/-- The value ranges of R53's table. -/
def ladder : List LadderRow :=
  [⟨1, 0x0, 0x7F⟩, ⟨2, 0x80, 0x3FFF⟩, ⟨3, 0x4000, 0x1FFFFF⟩, ⟨4, 0x200000, 0xFFFFFFF⟩,
   ⟨5, 0x10000000, 0x7FFFFFFFF⟩, ⟨6, 0x800000000, 0x3FFFFFFFFFF⟩,
   ⟨7, 0x40000000000, 0x1FFFFFFFFFFFF⟩, ⟨8, 0x2000000000000, 0xFFFFFFFFFFFFFF⟩]

/-- Whether a value lies in a row's range, which is inclusive (R53). -/
def LadderRow.holds (row : LadderRow) (x : Word) : Bool :=
  decide (row.lo ≤ x.toNat) && decide (x.toNat ≤ row.hi)

/-- `Lenc(x)`: "the L whose range in rule R53 contains x" (R54). No range holds a value above `VMAX`,
for which a 9th byte would be needed: there it is 9, and ENCODE never uses it (log 17). -/
def lenc (x : Word) : Nat :=
  match ladder.find? (fun row => row.holds x) with
  | some row => row.length
  | none => 9

end Sys2Proof.Machine
end

