-- ==== Sys2Proof/Config.lean ====
section
/-! DEFINITION. What an implementation fixes and the spec leaves open (spec/00_scope.md R7): the number
of instances, the latency, and how the primitives are built. All three are opaque: nothing can
evaluate them, so every claim holds for every value. -/

namespace Sys2Proof.Config

/-- The instances beyond the first: `N_UNITS` is "OPEN, natural number ≥ 1" (R7, R89). Log 1. -/
opaque extraUnits : Nat

/-- `N_UNITS`, the number of instances beside one host (R7). -/
def nUnits : Nat := extraUnits + 1

/-- `LATENCY`, one constant for every transaction (R7, R99). No rule depends on it: time is
represented by nothing but the fact that every transaction ends. Log 12. -/
opaque latency : Nat

/-- The two ways R60 lets a unit build its primitives. -/
inductive PrimImpl where
  | permutation
  | fallback
  deriving DecidableEq, Repr, Inhabited

/-- `PRIM_IMPL` (R7, R60): open and unobservable. Log 12. -/
opaque primImpl : PrimImpl

end Sys2Proof.Config
end

