-- ==== Sys2Proof/Machine/State.lean ====
section
/-! DEFINITION. The machine's state as plain data (spec/10_state.md): the instances with their ports and
outstanding transactions, the host's bindings, and the inputs still to come. -/

namespace Sys2Proof.Machine

/-- The input ports of one transaction (R16). -/
structure Inputs where
  /-- `CMD`, 8 bits -/
  cmd : Byte
  /-- `A`, 64 bits -/
  a : Word
  /-- `B`, 64 bits -/
  b : Word
  /-- `IN[0]..IN[7]`, 8 bits each -/
  window : Window
  /-- `LEN`, 4 bits -/
  len : BitVec 4
  deriving DecidableEq, Repr

/-- The error kinds of `STATUS` (R19). Codes 5, 6 and 7 are never driven and have no constructor
(spec/93_implementation_defined.md I8). -/
inductive ErrorKind where
  | bufferTooShort
  | varIntTooLong
  | valueTooLarge
  | illegalCommand
  deriving DecidableEq, Repr

/-- One response (R17, R20): `STATUS = OK` with a 64-bit `RES`, or an error, which has no value. -/
inductive Response where
  /-- `respond ok(v)` of R10 -/
  | ok (res : Word)
  /-- `raise <Error>` of R10 -/
  | error (kind : ErrorKind)
  deriving DecidableEq, Repr

/-- One instance of the unit (R14, R89). Between transactions it holds nothing of its own (R15). -/
structure UnitInstance where
  /-- what the host drives on the input ports; sampled only at issue (R16, R27). The spec does not say
  what stands on them between transactions: that the values last driven stay until the next drive is the
  model's DESIGN CHOICE (log 18) -/
  ports : Inputs
  /-- the transaction in progress, at most one (R89): the snapshot taken at issue (R36) -/
  outstanding : Option Inputs
  /-- what `STATUS`, `RES` and `OUT` give; `none` is "no value" (R17, R27; log 5) -/
  response : Option Response
  deriving DecidableEq, Repr

/-- A word operand as the assembly syntax writes it (R48). -/
inductive WordSource where
  | value (v : Word)
  /-- `RES(hN)` -/
  | res (name : Nat)
  deriving DecidableEq, Repr

/-- Where the host takes `IN[0..7]` and `LEN` from (R29, R48). -/
inductive WindowSource where
  /-- `[b0,...,b7], n`: `LEN = min(n, 15)` -/
  | bytes (w : Window) (n : Nat)
  /-- `OUT(hN), n`: the byte view of a bound result, `LEN = min(n, 15)` -/
  | out (name : Nat) (n : Nat)
  /-- a caller's buffer of `buf.length` bytes; `fill` is the "anything" of R29 for `i ≥ n` (log 11) -/
  | buffer (buf : List Byte) (fill : Window)
  deriving DecidableEq, Repr

/-- What the host presents on the input ports of an instance. -/
structure Presentation where
  cmd : Byte
  a : WordSource
  b : WordSource
  window : WindowSource
  deriving DecidableEq, Repr

/-- One event: what an agent does next (log 2). `u` numbers an instance. -/
inductive Event where
  /-- the host drives all five input ports of `u` (R16) -/
  | drive (u : Nat) (p : Presentation)
  /-- the host issues: `u` samples its ports and has a transaction outstanding (R16, R36) -/
  | issue (u : Nat)
  /-- `u` performs its outstanding transaction and gives its response (R11, R14) -/
  | perform (u : Nat)
  /-- the host binds the response of `u` to `h<name>` (R48) -/
  | receive (u : Nat) (name : Nat)
  /-- reset of `u` (R92, R93) -/
  | reset (u : Nat)
  deriving DecidableEq, Repr

/-- The whole machine: `N_UNITS` instances beside one host (R7, R14). -/
structure State where
  /-- the instances (R89) -/
  units : List UnitInstance
  /-- the model's own: the instance whose transaction the running instruction is (log 3) -/
  turn : Nat
  /-- the model's own: the events still to come, first one first (log 2) -/
  script : List Event
  /-- the host's names and the responses they are bound to, latest first (R48, log 10) -/
  bindings : List (Nat × Response)
  deriving DecidableEq, Repr

/-- Why the machine stops. No instruction raises one: an error of the unit is a response (R74). -/
inductive Fault where
  /-- Raised by `receive` when the instance's outputs hold no response: before the first one
  (spec/93_implementation_defined.md I9), while a transaction is outstanding, or after reset cut it
  off (I10: the host "waits for good"). Safe. -/
  | noResponse
  /-- Raised by `drive` when it reads `RES` or `OUT` of an error response (I7). Safe. -/
  | noResult
  /-- Raised by `drive` when it reads a name that nothing has bound (R48 lets only later commands
  use a name). Safe. -/
  | unboundName
  deriving DecidableEq, Repr

/-- Why the machine refuses. -/
inductive Refusal where
  /-- An instruction with no meaning yet. Raised by no arm of `exec`. Safe. -/
  | notModelled (mnemonic : String)
  /-- Raised by any event, and by a meaning, that names an instance the platform does not have.
  Safe (log 8). -/
  | noInstance
  /-- Raised by a meaning run while the instance has no transaction outstanding; no step does that.
  Safe (log 8). -/
  | noTransaction
  /-- Raised by `issue` to an instance whose transaction is still outstanding: R89 allows at most
  one. Safe (log 8). -/
  | instanceBusy
  deriving DecidableEq, Repr

/-- The input ports before the host first drives them: the spec gives no value (R27 "driven by the
host"); zero is the model's DESIGN CHOICE (log 4). -/
def Inputs.reset : Inputs :=
  { cmd := 0, a := 0, b := 0, window := #v[0, 0, 0, 0, 0, 0, 0, 0], len := 0 }

/-- An instance right after reset (R27, R92). -/
def UnitInstance.reset : UnitInstance :=
  { ports := Inputs.reset, outstanding := none, response := none }

/-- The machine right after reset: every instance idle with no response (R27, R92), nothing bound,
no input to come (log 14). -/
def State.reset : State :=
  { units := UnitInstance.reset :: List.replicate Config.extraUnits UnitInstance.reset
    turn := 0
    script := []
    bindings := [] }

end Sys2Proof.Machine
end

