-- ==== Sys2Proof/Machine/Operands.lean ====
section
/-! DEFINITION. Operands and byte order: what each operation reads from the sampled ports
(spec/30_encoding.md R47), the little-endian word and byte views (spec/20_memory.md R31, R32), and
what the host presents for a buffer (R29) or a bound name (R48). -/

namespace Sys2Proof.Machine

/-- `LE64(b0..b7)`: byte 0 is the least significant (R10, R31). -/
def leWord (w : Window) : Word :=
  w[0].setWidth 64 ||| w[1].setWidth 64 <<< 8 ||| w[2].setWidth 64 <<< 16
    ||| w[3].setWidth 64 <<< 24 ||| w[4].setWidth 64 <<< 32 ||| w[5].setWidth 64 <<< 40
    ||| w[6].setWidth 64 <<< 48 ||| w[7].setWidth 64 <<< 56

/-- `bytes(w)`: the little-endian byte view (R10, R32). -/
def bytesOf (w : Word) : Window :=
  #v[w.extractLsb' 0 8, w.extractLsb' 8 8, w.extractLsb' 16 8, w.extractLsb' 24 8,
     w.extractLsb' 32 8, w.extractLsb' 40 8, w.extractLsb' 48 8, w.extractLsb' 56 8]

/-- `mask = A` of EXTRACT and DEPOSIT (R47). -/
def Inputs.maskOperand (tx : Inputs) : Word := tx.a

/-- `source = B` of EXTRACT, `packed = B` of DEPOSIT (R47). -/
def Inputs.secondOperand (tx : Inputs) : Word := tx.b

/-- `x = A` of ENCODE (R47). -/
def Inputs.valueOperand (tx : Inputs) : Word := tx.a

/-- `w = LE64(IN[0..7])` of the decoders (R31, R47). -/
def Inputs.windowWord (tx : Inputs) : Word := leWord tx.window

/-- The decoders use the window only when `LEN ≥ 8`, `LEN` being unsigned (R30). -/
def Inputs.tooShort (tx : Inputs) : Bool := decide (tx.len.toNat < 8)

/-- `LEN <- min(n, 15)` (R16, R29). -/
def presentLen (n : Nat) : BitVec 4 := BitVec.ofNat 4 (min n 15)

/-- `IN[i] <- buf[i]` if `i < n`, anything otherwise (R29); `fill` is the anything (log 11). -/
def presentBytes (buf : List Byte) (fill : Window) : Window :=
  #v[buf.getD 0 fill[0], buf.getD 1 fill[1], buf.getD 2 fill[2], buf.getD 3 fill[3],
     buf.getD 4 fill[4], buf.getD 5 fill[5], buf.getD 6 fill[6], buf.getD 7 fill[7]]

/-- `RES(hN)`: the value of a bound response. An error response has none, and a model that reads one
must fail (R20, R97, spec/93_implementation_defined.md I7). -/
def resultOf (bs : List (Nat × Response)) (name : Nat) : Except Fault Word :=
  match bs.lookup name with
  | some (.ok v) => .ok v
  | some (.error _) => .error .noResult
  | none => .error .unboundName

/-- The value of a word operand (R48). -/
def WordSource.read (bs : List (Nat × Response)) : WordSource → Except Fault Word
  | .value v => .ok v
  | .res name => resultOf bs name

/-- The bytes and the length the host presents (R29, R48). -/
def WindowSource.read (bs : List (Nat × Response)) : WindowSource → Except Fault (Window × BitVec 4)
  | .bytes w n => .ok (w, presentLen n)
  | .out name n =>
    match resultOf bs name with
    | .ok v => .ok (bytesOf v, presentLen n)
    | .error f => .error f
  | .buffer buf fill => .ok (presentBytes buf fill, presentLen buf.length)

/-- The five port values the host presents, or why it cannot. -/
def Presentation.inputs (bs : List (Nat × Response)) (p : Presentation) : Except Fault Inputs :=
  match p.a.read bs with
  | .error f => .error f
  | .ok a =>
    match p.b.read bs with
    | .error f => .error f
    | .ok b =>
      match p.window.read bs with
      | .error f => .error f
      | .ok wn => .ok { cmd := p.cmd, a := a, b := b, window := wn.1, len := wn.2 }

end Sys2Proof.Machine
end

