-- ==== Sys2Proof/Machine/Ops.lean ====
section
/-! DEFINITION. The shared operations on the state: ending a transaction with its response (the one way
an instruction acts, an error included), and reading what the output ports give
(spec/10_state.md R17, R19, R20; spec/60_exceptions.md R74). -/

namespace Sys2Proof.Machine

/-- The `STATUS` code of an error (R19). -/
def ErrorKind.code : ErrorKind → BitVec 3
  | .bufferTooShort => 1
  | .varIntTooLong => 2
  | .valueTooLarge => 3
  | .illegalCommand => 4

/-- `STATUS` of a response (R19). -/
def Response.status : Response → BitVec 3
  | .ok _ => 0
  | .error k => k.code

/-- `RES` of a response: no value unless `STATUS = OK` (R20). -/
def Response.result? : Response → Option Word
  | .ok v => some v
  | .error _ => none

/-- `OUT[0..7]`, the byte view of `RES` (R17, R32): no value unless `STATUS = OK` (R20). -/
def Response.out? (r : Response) : Option Window := r.result?.map bytesOf

/-- The instance with other values driven on its input ports: nothing else changes (R16, R36). They stay
there until the next drive (log 18). -/
def UnitInstance.driven (x : UnitInstance) (tx : Inputs) : UnitInstance := { x with ports := tx }

/-- The instance with a transaction outstanding: all five ports sampled together (R16, R36). Its
outputs hold no response until it gives one (log 5); its ports keep what they held, so a second issue with
no drive between samples the same values again (log 18). -/
def UnitInstance.issued (x : UnitInstance) : UnitInstance :=
  { x with outstanding := some x.ports, response := none }

/-- The instance after its response: the transaction has ended, whatever the status (R74, R84, R98). The
outputs hold the response from here on (DESIGN CHOICE, log 5), and the input ports still hold what the host
last drove on them (DESIGN CHOICE, log 18): R98 says neither. -/
def UnitInstance.answered (x : UnitInstance) (r : Response) : UnitInstance :=
  { x with outstanding := none, response := some r }

/-- The instance after reset: no outstanding transaction, no response; the host still drives its
input ports (R27, R92, R93; log 15). -/
def UnitInstance.wasReset (x : UnitInstance) : UnitInstance :=
  { x with outstanding := none, response := none }

/-- The state with instance `u` replaced. -/
def State.setUnit (s : State) (u : Nat) (x : UnitInstance) : State :=
  { s with units := s.units.set u x }

/-- The state with the response bound to `h<name>`, replacing an earlier binding of the name (R48,
log 10). -/
def State.bind (s : State) (name : Nat) (r : Response) : State :=
  { s with bindings := (name, r) :: s.bindings.filter (fun b => b.1 != name) }

/-- Run `f` on instance `u`; an instance the platform does not have is refused (log 8). -/
def State.withUnit (s : State) (u : Nat)
    (f : UnitInstance → Host.Outcome State Fault Refusal) : Host.Outcome State Fault Refusal :=
  match s.units[u]? with
  | some x => f x
  | none => .refused .noInstance

/-- End the transaction of the instance whose turn it is with the response `f` computes from the
sampled inputs, in one atomic step (R11). `respond ok(v)` and `raise <Error>` of R10 are the two forms
of the response; an error changes nothing an `OK` would not (R74, R83, R84). -/
def answer (f : Inputs → Response) (s : State) : Host.Outcome State Fault Refusal :=
  s.withUnit s.turn fun x =>
    match x.outstanding with
    | some tx => .next (s.setUnit s.turn (x.answered (f tx)))
    | none => .refused .noTransaction

end Sys2Proof.Machine
end

