-- ==== Sys2Proof/Machine/BitParallel.lean ====
section
/-! DEFINITION. The bit-parallel primitives and the commands EXTRACT and DEPOSIT
(spec/40_bitparallel.md). -/

namespace Sys2Proof.Machine

/-- `r[i] = b`. -/
def assignBit (r : Word) (i : Nat) (b : Bool) : Word :=
  (r &&& ~~~ BitVec.twoPow 64 i) ||| (if b then BitVec.twoPow 64 i else 0)

/-- One turn of R56's loop, on the pair of its `r` and `k`. -/
def extractStep (mask source : Word) (i : Nat) (rk : Word × Nat) : Word × Nat :=
  if mask.getLsbD i then (assignBit rk.1 rk.2 (source.getLsbD i), rk.2 + 1) else rk

/-- R56's loop after the bits `0..n-1`, in ascending order. -/
def extractLoop (mask source : Word) : Nat → Word × Nat
  | 0 => (0, 0)
  | n + 1 => extractStep mask source n (extractLoop mask source n)

/-- `extract(mask, source)` (R56). -/
def extract (mask source : Word) : Word := (extractLoop mask source 64).1

/-- One turn of R57's loop, on the pair of its `r` and `k`. -/
def depositStep (mask packed : Word) (i : Nat) (rk : Word × Nat) : Word × Nat :=
  if mask.getLsbD i then (assignBit rk.1 i (packed.getLsbD rk.2), rk.2 + 1) else rk

/-- R57's loop after the bits `0..n-1`, in ascending order. -/
def depositLoop (mask packed : Word) : Nat → Word × Nat
  | 0 => (0, 0)
  | n + 1 => depositStep mask packed n (depositLoop mask packed n)

/-- `deposit(mask, packed)` (R57). -/
def deposit (mask packed : Word) : Word := (depositLoop mask packed 64).1

/-- A portable bit-by-bit extract (R60): from the top bit down, each selected bit of the source is
shifted in at the bottom. The unit uses `extract`, as R60 asks of a model; this is the other build
that R60 allows, for the claim that the two agree (log 12). -/
def extractFallback (mask source : Word) : Nat → Word → Word
  | 0, r => r
  | n + 1, r =>
    extractFallback mask source n
      (if mask.getLsbD n then r <<< 1 ||| (source &&& BitVec.twoPow 64 n) >>> n else r)

/-- A portable bit-by-bit deposit (R60): each selected position takes the lowest bit of what is left of
the packed value. `n` counts down the positions left (log 12). -/
def depositFallback (mask : Word) : Nat → Word → Word → Word
  | 0, _, r => r
  | n + 1, packed, r =>
    if mask.getLsbD (63 - n) then
      depositFallback mask n (packed >>> 1) (r ||| (packed &&& 1) <<< (63 - n))
    else depositFallback mask n packed r

/-- The response of EXTRACT (R61). -/
def extractResponse (tx : Inputs) : Response := .ok (extract tx.maskOperand tx.secondOperand)

/-- The response of DEPOSIT (R62). -/
def depositResponse (tx : Inputs) : Response := .ok (deposit tx.maskOperand tx.secondOperand)

/-- EXTRACT (R61). -/
def execExtract (s : State) : Host.Outcome State Fault Refusal := answer extractResponse s

/-- DEPOSIT (R62). -/
def execDeposit (s : State) : Host.Outcome State Fault Refusal := answer depositResponse s

end Sys2Proof.Machine
end

