-- ==== Sys2Proof/Machine/Decoder.lean ====
section
/-! DEFINITION. The commands DECODE64 and DECODE32 (spec/41_decoder.md). -/

namespace Sys2Proof.Machine

/-- The response of DECODE64 (R63). The length is looked at before any byte (R30, R81). -/
def decode64Response (tx : Inputs) : Response :=
  if tx.tooShort then .error .bufferTooShort
  else
    let w := tx.windowWord
    let p := flagCount w
    if p = 8 then .error .varIntTooLong else .ok (extract (sel p) w)

/-- The response of DECODE32 (R64): at most 5 active bytes, and the value cut to 32 bits. -/
def decode32Response (tx : Inputs) : Response :=
  if tx.tooShort then .error .bufferTooShort
  else
    let w := tx.windowWord
    let p := flagCount w
    if 5 ≤ p then .error .varIntTooLong
    else .ok (((extract (sel p) w).setWidth 32).setWidth 64)

/-- DECODE64 (R63). -/
def execDecode64 (s : State) : Host.Outcome State Fault Refusal := answer decode64Response s

/-- DECODE32 (R64). -/
def execDecode32 (s : State) : Host.Outcome State Fault Refusal := answer decode32Response s

end Sys2Proof.Machine
end

