-- ==== Sys2Proof/Machine/Encoder.lean ====
section
/-! DEFINITION. The command ENCODE (spec/42_encoder.md). -/

namespace Sys2Proof.Machine

/-- The encoded word of a value of at most 56 bits: its bits in the payload lanes, the flags of all
active bytes but the last (R68, R69). -/
def encodedWord (x : Word) : Word := deposit (pm (lenc x)) x ||| tf (lenc x)

/-- The response of ENCODE (R68). -/
def encodeResponse (tx : Inputs) : Response :=
  let x := tx.valueOperand
  if vmax < x then .error .valueTooLarge else .ok (encodedWord x)

/-- ENCODE (R68). -/
def execEncode (s : State) : Host.Outcome State Fault Refusal := answer encodeResponse s

end Sys2Proof.Machine
end

