-- ==== Sys2Proof/Machine/Dispatch.lean ====
section
/-! DEFINITION. What each instruction does: one arm per constructor, each one call of its meaning. -/

namespace Sys2Proof.Machine

/-- The meaning of each operation (R3), on the transaction of the instance whose turn it is. -/
def exec (i : Instr) (s : State) : Host.Outcome State Fault Refusal :=
  match i with
  | .extract => Sys2Proof.Machine.execExtract s
  | .deposit => Sys2Proof.Machine.execDeposit s
  | .decode64 => Sys2Proof.Machine.execDecode64 s
  | .decode32 => Sys2Proof.Machine.execDecode32 s
  | .encode => Sys2Proof.Machine.execEncode s

end Sys2Proof.Machine
end

