-- ==== Sys2Proof/Machine/Transaction.lean ====
section
/-! DEFINITION. The events: an instance performing its transaction, and what the host does at the ports
(spec/10_state.md, spec/20_memory.md R29, spec/70_reset_and_hazards.md R92, R93, R97). -/

namespace Sys2Proof.Machine

/-- The response to an illegal command word: no operand is read (R46, R78). -/
def illegalResponse (_ : Inputs) : Response := .error .illegalCommand

/-- Run what the command word was decoded to. The word is decoded before any operand is looked at
(R81), and all illegal words behave alike (R46). -/
def runCommand (c : Except Reject Instr) (s : State) : Host.Outcome State Fault Refusal :=
  match c with
  | .ok i => exec i s
  | .error _ => answer illegalResponse s

/-- Instance `u` performs its outstanding transaction; with none outstanding it does nothing (R15, R92;
log 6). -/
def performUnit (u : Nat) (s : State) : Host.Outcome State Fault Refusal :=
  s.withUnit u fun x =>
    match x.outstanding with
    | some tx => runCommand (decode tx.cmd) { s with turn := u }
    | none => .next s

/-- The host drives all the input ports of instance `u` (R16, R29). -/
def driveUnit (u : Nat) (p : Presentation) (s : State) : Host.Outcome State Fault Refusal :=
  s.withUnit u fun x =>
    match p.inputs s.bindings with
    | .ok tx => .next (s.setUnit u (x.driven tx))
    | .error f => .fault f

/-- The host issues a transaction to instance `u`, which may have none outstanding (R16, R89). -/
def issueUnit (u : Nat) (s : State) : Host.Outcome State Fault Refusal :=
  s.withUnit u fun x =>
    match x.outstanding with
    | some _ => .refused .instanceBusy
    | none => .next (s.setUnit u x.issued)

/-- The host receives the response of instance `u` under a name (R17, R48); with no response there is
nothing to read (spec/93_implementation_defined.md I9, I10). -/
def receiveUnit (u name : Nat) (s : State) : Host.Outcome State Fault Refusal :=
  s.withUnit u fun x =>
    match x.response with
    | some r => .next (s.bind name r)
    | none => .fault .noResponse

/-- Reset of instance `u`: a transaction outstanding gets no response (R92, R93). -/
def resetUnit (u : Nat) (s : State) : Host.Outcome State Fault Refusal :=
  s.withUnit u fun x => .next (s.setUnit u x.wasReset)

/-- What an event does. -/
def runEvent (e : Event) (s : State) : Host.Outcome State Fault Refusal :=
  match e with
  | .drive u p => driveUnit u p s
  | .issue u => issueUnit u s
  | .perform u => performUnit u s
  | .receive u name => receiveUnit u name s
  | .reset u => resetUnit u s

/-- The first instance with a transaction outstanding. -/
def firstBusy (units : List UnitInstance) : Option Nat :=
  units.findIdx? (fun x => x.outstanding.isSome)

/-- With no input to come, the instances go on by themselves: every transaction ends (R98, R99). Which
busy instance moves first changes no response (R39); the model takes the first (log 7). -/
def drain (s : State) : Host.Outcome State Fault Refusal :=
  match firstBusy s.units with
  | some u => performUnit u s
  | none => .next s

/-- The command word with the low bits of a table row's number (R44). -/
def fetchByte (nbits w : Nat) : Byte := BitVec.ofNat 8 (w % 2 ^ nbits)

/-- The instance with a transaction outstanding whose command word is `cmd` and whose other inputs are
what its ports hold. -/
def UnitInstance.withCommand (x : UnitInstance) (cmd : Byte) : UnitInstance :=
  { x with outstanding := some { x.ports with cmd := cmd }, response := none }

/-- Instance 0 with that transaction outstanding, and an instance 0 to hold it. -/
def loadFirst (units : List UnitInstance) (cmd : Byte) : List UnitInstance :=
  match units with
  | [] => [UnitInstance.reset.withCommand cmd]
  | x :: rest => x.withCommand cmd :: rest

end Sys2Proof.Machine
end

