-- ==== Sys2Proof/Machine/Step.lean ====
section
/-! DEFINITION. One step of the machine: the next event of the script, or, with none left, the next
outstanding transaction. -/

namespace Sys2Proof.Machine

/-- One step (log 2, log 7). -/
def step (s : State) : Host.Outcome State Fault Refusal :=
  match s.script with
  | e :: rest => runEvent e { s with script := rest }
  | [] => drain s

/-- The state in which the very next step is instance 0 performing the command word `w`: the unit
fetches no instruction, so the word is issued to it as a host would (R22, log 14). -/
def State.withFetchWord (s : State) (nbits w : Nat) : State :=
  { s with units := loadFirst s.units (fetchByte nbits w), script := .perform 0 :: s.script }

end Sys2Proof.Machine
end

