-- ==== Sys2Proof/Machine/Format.lean ====
section
/-! DEFINITION. The varint data format as spec/30_encoding.md section 2 gives it, lane by lane, and the
standard LEB128 reader of spec/41_decoder.md R67. The unit computes with words and masks; these are the
terms in which the spec says what that computation means. -/

namespace Sys2Proof.Machine

/-- Lane `i` of a word: bits `8i+7..8i`, byte `i` of the buffer (R33, R49). -/
def lane (w : Word) (i : Nat) : Byte := w.extractLsb' (8 * i) 8

/-- The payload field of a lane, bits 0..6 (R49). -/
def payload (b : Byte) : BitVec 7 := b.extractLsb' 0 7

/-- The continuation flag of a lane, bit 7: "set = more bytes follow" (R12, R49). -/
def continues (b : Byte) : Bool := b.getLsbD 7

/-- The value of the payloads of lanes `0..n-1`, least significant first, 7 bits a lane (R50). -/
def laneSum (w : Word) : Nat → Nat
  | 0 => 0
  | n + 1 => laneSum w n + (payload (lane w n)).toNat * 2 ^ (7 * n)

/-- The set flags are exactly those of lanes `0..l-2` (R67). -/
abbrev FlagsExactly (w : Word) (l : Nat) : Prop :=
  1 ≤ l ∧ l ≤ 8 ∧ ∀ i, i < 8 → continues (lane w i) = decide (i + 1 < l)

/-- A valid encoding of length `l`, as the encoder produces one: the flags of lanes `0..l-2` and the
lanes from `l` on zero (R51). -/
abbrev ValidEncoding (w : Word) (l : Nat) : Prop :=
  FlagsExactly w l ∧ ∀ i, i < 8 → l ≤ i → lane w i = 0

/-- A standard LEB128 reader: it stops at the first byte whose flag is clear (R67). -/
def standardRead : List Byte → Option Nat
  | [] => none
  | b :: rest =>
    if continues b then (standardRead rest).map (fun v => (payload b).toNat + 2 ^ 7 * v)
    else some (payload b).toNat

end Sys2Proof.Machine
end

