-- ==== Sys2Proof/Safety.lean ====
section
/-! DEFINITION. The terms claims are stated in: a transaction in progress, the response as a function of
the sampled inputs (spec/10_state.md R15), the invariant of the state, and the events a host that keeps to
the spec may use (spec/70_reset_and_hazards.md R97, spec/60_exceptions.md R89). -/

namespace Sys2Proof.Machine

/-- The instance whose turn it is, `x`, has the transaction `tx` outstanding. -/
abbrev Performing (s : State) (x : UnitInstance) (tx : Inputs) : Prop :=
  s.units[s.turn]? = some x ∧ x.outstanding = some tx

/-- The instance `u` is `x` and has the transaction `tx` outstanding. -/
abbrev Outstanding (s : State) (u : Nat) (x : UnitInstance) (tx : Inputs) : Prop :=
  s.units[u]? = some x ∧ x.outstanding = some tx

/-- The response of a legal command to its sampled inputs. -/
def responseOf : Instr → Inputs → Response
  | .extract => extractResponse
  | .deposit => depositResponse
  | .decode64 => decode64Response
  | .decode32 => decode32Response
  | .encode => encodeResponse

/-- "The response of a transaction is a function of that transaction's inputs alone" (R15): this
function. -/
def respondTo (tx : Inputs) : Response :=
  match decode tx.cmd with
  | .ok i => responseOf i tx
  | .error _ => illegalResponse tx

/-- What every step keeps: the platform has its `N_UNITS` instances (R7), the turn is one of theirs, an
instance with a transaction outstanding shows no response (log 5), and no name is bound twice (log 10). -/
structure State.Inv (s : State) : Prop where
  unitCount : s.units.length = Config.nUnits
  turnInRange : s.turn < s.units.length
  busySilent : ∀ x ∈ s.units, x.outstanding.isSome = true → x.response = none
  namesDistinct : (s.bindings.map Prod.fst).Nodup

/-- The instance an event is about. -/
def Event.unit : Event → Nat
  | .drive u _ => u
  | .issue u => u
  | .perform u => u
  | .receive u _ => u
  | .reset u => u

/-- Whether `RES(hN)` may be read: the name is bound to an `OK` response (R20, R97). -/
def readable (bs : List (Nat × Response)) (name : Nat) : Bool :=
  match bs.lookup name with
  | some (.ok _) => true
  | _ => false

/-- Whether every name a presentation uses may be read. -/
def Presentation.readable (bs : List (Nat × Response)) (p : Presentation) : Bool :=
  let word : WordSource → Bool
    | .value _ => true
    | .res name => Machine.readable bs name
  let window : WindowSource → Bool
    | .bytes _ _ => true
    | .out name _ => Machine.readable bs name
    | .buffer _ _ => true
  word p.a && word p.b && window p.window

/-- `h<name>` has no value, and the fault of reading it: it is bound to an error (R20), or to nothing
(log 9, log 10). -/
inductive NameMissing (bs : List (Nat × Response)) (name : Nat) : Fault → Prop where
  | error {k : ErrorKind} (h : bs.lookup name = some (.error k)) : NameMissing bs name .noResult
  | unbound (h : bs.lookup name = none) : NameMissing bs name .unboundName

/-- The word a source gives: the one written out, or the result of a name bound to `ok` (R48). -/
inductive WordGives (bs : List (Nat × Response)) : WordSource → Word → Prop where
  | value (v : Word) : WordGives bs (.value v) v
  | res {name : Nat} {v : Word} (h : bs.lookup name = some (.ok v)) : WordGives bs (.res name) v

/-- A word source that has no value. -/
inductive WordMissing (bs : List (Nat × Response)) : WordSource → Fault → Prop where
  | res {name : Nat} {f : Fault} (h : NameMissing bs name f) : WordMissing bs (.res name) f

/-- The bytes and the number of readable bytes a source gives: those written out, the bytes of the
result of a name bound to `ok` (R48), or the head of a buffer with anything past its end (R29). -/
inductive WindowGives (bs : List (Nat × Response)) : WindowSource → Window → Nat → Prop where
  | bytes (w : Window) (n : Nat) : WindowGives bs (.bytes w n) w n
  | out {name : Nat} {v : Word} (n : Nat) (h : bs.lookup name = some (.ok v)) :
      WindowGives bs (.out name n) (bytesOf v) n
  | buffer (buf : List Byte) (fill w : Window)
      (h : ∀ i (hi : i < 8), w[i] = if hb : i < buf.length then buf[i] else fill[i]) :
      WindowGives bs (.buffer buf fill) w buf.length

/-- A window source that has no value. -/
inductive WindowMissing (bs : List (Nat × Response)) : WindowSource → Fault → Prop where
  | out {name n : Nat} {f : Fault} (h : NameMissing bs name f) : WindowMissing bs (.out name n) f

/-- The events a host that keeps to the spec gives in a state: of an instance there is, reading only
`OK` results (R97), issuing only to an idle instance (R89), receiving only a response that is there (R27). -/
def Event.admissible (s : State) (e : Event) : Bool :=
  match s.units[e.unit]? with
  | none => false
  | some x =>
    match e with
    | .drive _ p => p.readable s.bindings
    | .issue _ => x.outstanding.isNone
    | .perform _ => true
    | .receive _ _ => x.response.isSome
    | .reset _ => true

/-- A transaction as a host carries it out by itself: inputs, the instance and the name for the
response. -/
structure HostTransaction where
  unit : Nat
  inputs : Inputs
  name : Nat
  deriving DecidableEq, Repr

/-- The host's presentation of literal port values (R48). -/
def Inputs.presented (tx : Inputs) : Presentation :=
  { cmd := tx.cmd, a := .value tx.a, b := .value tx.b, window := .bytes tx.window tx.len.toNat }

/-- `hN <- <command>` of R48, event by event. -/
def HostTransaction.events (t : HostTransaction) : List Event :=
  [.drive t.unit t.inputs.presented, .issue t.unit, .perform t.unit, .receive t.unit t.name]

/-- How many instances have a transaction outstanding. -/
def busyCount (units : List UnitInstance) : Nat :=
  units.countP (fun x => x.outstanding.isSome)

end Sys2Proof.Machine
end

