-- ==== Sys2Proof/Certificates/Slice0/Obligations.lean ====
section
/-! DEFINITION. The statements about the model, from the spec's numbered rules. Each docstring says which
rule or section it formalises; where a statement rests on the model's own choice it names the log entry. -/

open Sys2Proof Sys2Proof.Machine

/-! ### Command words -/

/-- R45: a command is legal exactly when `RSV = 0` and `OP ≤ 4`, and the table of `OP` values. -/
def Obligations.LegalCommandsAreTheFiveTableWords : Prop :=
  (∀ cmd : Byte,
    (∃ i, decode cmd = .ok i) ↔
      (cmd.extractLsb' 4 4 = 0 ∧ (cmd.extractLsb' 0 4).toNat ≤ 4)) ∧
  decode 0x00 = .ok .extract ∧ decode 0x01 = .ok .deposit ∧ decode 0x02 = .ok .decode64 ∧
  decode 0x03 = .ok .decode32 ∧ decode 0x04 = .ok .encode

/-- spec/30_encoding.md section 1: the encoder's word of an instruction is well formed and decodes to that
instruction, and no other word does. -/
def Obligations.DecodeAndEncodeAgree : Prop :=
  ∀ i : Instr, (Command.ofByte (encode i)).wf = true ∧
    ∀ cmd : Byte, decode cmd = .ok i ↔ cmd = encode i

/-- spec/10_state.md sections 1 and 4, with the model's scheduling (log 2, log 7): a step that performs a
transaction whose command word decodes to `i` is `exec i`, on the state whose turn it is and whose event is
taken from the script; with no event left it is the first instance with a transaction outstanding. -/
def Obligations.StepRunsTheDecodedCommand : Prop :=
  ∀ (s : State) (u : Nat) (x : UnitInstance) (tx : Inputs) (i : Instr),
    Outstanding s u x tx → decode tx.cmd = .ok i →
    (∀ rest, s.script = .perform u :: rest →
      step s = exec i { s with script := rest, turn := u }) ∧
    (s.script = [] → (∀ v y, v < u → s.units[v]? = some y → y.outstanding = none) →
      step s = exec i { s with turn := u })

/-- R46 and R78: every one of the 251 words with `OP ≥ 5` or `RSV ≠ 0` ends its transaction with
`IllegalCommand`, status 4, whatever the operands. -/
def Obligations.IllegalWordsAnswerIllegalCommand : Prop :=
  (∀ (s : State) (u : Nat) (rest : List Event) (x : UnitInstance) (tx : Inputs),
    s.script = .perform u :: rest → Outstanding s u x tx →
    (5 ≤ (tx.cmd.extractLsb' 0 4).toNat ∨ tx.cmd.extractLsb' 4 4 ≠ 0) →
    step s = .next
      ({ s with script := rest, turn := u }.setUnit u (x.answered (.error .illegalCommand)))) ∧
  (Response.error .illegalCommand).status = 4 ∧
  ((List.range 256).countP fun n => (decode (BitVec.ofNat 8 n)).toOption.isNone) = 251

/-! ### The primitives, EXTRACT and DEPOSIT -/

/-- R56: the selected bits of `source`, in ascending order, from bit 0 up, and zeros above them. -/
def Obligations.ExtractGathersSelectedBitsInOrder : Prop :=
  ∀ mask source : Word,
    (∀ i, i < 64 → mask.getLsbD i = true →
      (extract mask source).getLsbD ((List.range i).countP fun j => mask.getLsbD j)
        = source.getLsbD i) ∧
    (∀ k, ((List.range 64).countP fun j => mask.getLsbD j) ≤ k →
      (extract mask source).getLsbD k = false)

/-- spec/40_bitparallel.md section 1 (deposit; its order is an inference the spec marks as its own): the
j-th lowest selected position receives bit j, and all other bits are zero. -/
def Obligations.DepositScattersLowBitsInOrder : Prop :=
  ∀ (mask packed : Word) (i : Nat), i < 64 →
    (deposit mask packed).getLsbD i
      = (mask.getLsbD i && packed.getLsbD ((List.range i).countP fun j => mask.getLsbD j))

/-- R58. -/
def Obligations.DepositOfExtractIsTheMaskedWord : Prop :=
  ∀ mask v : Word, deposit mask (extract mask v) = v &&& mask

/-- R59. -/
def Obligations.ExtractOfDepositIsTheLowBits : Prop :=
  ∀ mask v : Word, extract mask (deposit mask v) = v &&& lowmask (popcount mask)

/-- spec/40_bitparallel.md section 1 (the two builds the spec allows; the fallback is the model's, log 12):
a portable bit-by-bit build computes the same functions, so `PRIM_IMPL` can change no result. -/
def Obligations.PortableFallbackComputesTheSameFunctions : Prop :=
  ∀ mask v : Word,
    extractFallback mask v 64 0 = extract mask v ∧ depositFallback mask 64 v 0 = deposit mask v

/-- R61: EXTRACT, its encoding, its response from any state with the transaction outstanding, its corner
cases and its example. -/
def Obligations.ExtractCommand : Prop :=
  decode 0x00 = .ok .extract ∧
  (∀ (s : State) (x : UnitInstance) (tx : Inputs), Performing s x tx →
    exec .extract s = .next (s.setUnit s.turn (x.answered (.ok (extract tx.a tx.b))))) ∧
  (∀ b : Word, extract 0 b = 0 ∧ extract 0xFFFFFFFFFFFFFFFF b = b ∧
    extract 0x8000000000000000 b = if b.getLsbD 63 then 1 else 0) ∧
  (∀ a : Word, extract a a = lowmask (popcount a)) ∧
  (∀ a b : Word, (extract a b).toNat < 2 ^ popcount a) ∧
  (∀ a b b' : Word, b &&& a = b' &&& a → extract a b = extract a b') ∧
  extract 0x7F7F 0x02AC = 0x12C

/-- R62: DEPOSIT, its encoding, its response from any state with the transaction outstanding, its corner
cases and its example. -/
def Obligations.DepositCommand : Prop :=
  decode 0x01 = .ok .deposit ∧
  (∀ (s : State) (x : UnitInstance) (tx : Inputs), Performing s x tx →
    exec .deposit s = .next (s.setUnit s.turn (x.answered (.ok (deposit tx.a tx.b))))) ∧
  (∀ b : Word, deposit 0 b = 0 ∧ deposit 0xFFFFFFFFFFFFFFFF b = b ∧
    deposit 0x8000000000000000 b = if b.getLsbD 0 then 0x8000000000000000 else 0) ∧
  (∀ a b b' : Word, (∀ k, k < popcount a → b.getLsbD k = b'.getLsbD k) →
    deposit a b = deposit a b') ∧
  (∀ a b : Word, deposit a b &&& ~~~ a = 0) ∧
  deposit 0x7F7F 0x12C = 0x22C

/-! ### DECODE64 and DECODE32 -/

/-- R63: DECODE64, its encoding, its response from any state with the transaction outstanding (each of
the three statuses, for exactly its inputs), its corner cases and its example. -/
def Obligations.DecodeSixtyFourCommand : Prop :=
  decode 0x02 = .ok .decode64 ∧
  (∀ (s : State) (x : UnitInstance) (tx : Inputs), Performing s x tx →
    let w := leWord tx.window
    let p := popcount (w &&& 0x8080808080808080)
    p ≤ 8 ∧
    (tx.len.toNat < 8 →
      exec .decode64 s = .next (s.setUnit s.turn (x.answered (.error .bufferTooShort)))) ∧
    (8 ≤ tx.len.toNat → p = 8 →
      exec .decode64 s = .next (s.setUnit s.turn (x.answered (.error .varIntTooLong)))) ∧
    (8 ≤ tx.len.toNat → p < 8 →
      exec .decode64 s = .next (s.setUnit s.turn (x.answered (.ok (extract (sel p) w)))))) ∧
  (∀ w : Word, flagCount w < 8 →
    (extract (sel (flagCount w)) w).toNat < 2 ^ (7 * (flagCount w + 1))) ∧
  (∀ w w' : Word, flagCount w = flagCount w' → flagCount w < 8 →
    w &&& sel (flagCount w) = w' &&& sel (flagCount w) →
    extract (sel (flagCount w)) w = extract (sel (flagCount w')) w') ∧
  (∀ tx : Inputs, tx.len = 8 →
    (tx.window = #v[0, 0, 0, 0, 0, 0, 0, 0] → decode64Response tx = .ok 0) ∧
    (tx.window = #v[0xAC, 0x02, 0, 0, 0, 0, 0, 0] → decode64Response tx = .ok 300))

/-- R64: DECODE32, its encoding, its response from any state with the transaction outstanding (each of
the three statuses, for exactly its inputs), its corner cases and its example. -/
def Obligations.DecodeThirtyTwoCommand : Prop :=
  decode 0x03 = .ok .decode32 ∧
  (∀ (s : State) (x : UnitInstance) (tx : Inputs), Performing s x tx →
    let w := leWord tx.window
    let p := popcount (w &&& 0x8080808080808080)
    (tx.len.toNat < 8 →
      exec .decode32 s = .next (s.setUnit s.turn (x.answered (.error .bufferTooShort)))) ∧
    (8 ≤ tx.len.toNat → 5 ≤ p →
      exec .decode32 s = .next (s.setUnit s.turn (x.answered (.error .varIntTooLong)))) ∧
    (8 ≤ tx.len.toNat → p < 5 →
      (extract (sel p) w).toNat < 2 ^ (7 * (p + 1)) ∧
      ∃ v : Word, v.toNat = (extract (sel p) w).toNat % 2 ^ 32 ∧ v.extractLsb' 32 32 = 0 ∧
        exec .decode32 s = .next (s.setUnit s.turn (x.answered (.ok v))))) ∧
  (∀ tx : Inputs, 8 ≤ tx.len.toNat → 5 ≤ flagCount (leWord tx.window) →
    flagCount (leWord tx.window) ≤ 7 →
    (∃ v, decode64Response tx = .ok v) ∧ decode32Response tx = .error .varIntTooLong) ∧
  (∀ tx : Inputs, tx.len = 8 → tx.window = #v[0x80, 0x80, 0x80, 0x80, 0x10, 0, 0, 0] →
    decode32Response tx = .ok 0)

/-- R65: the active-byte count is the global count of flags. Two windows with equal payloads and equally
many flags get the same responses; a flag at or after the true end raises the count above `L - 1`, and the
payload of that many lanes is taken in; and the example. -/
def Obligations.DecodersCountFlagsGlobally : Prop :=
  (∀ tx tx' : Inputs, tx.len = tx'.len →
    flagCount (leWord tx.window) = flagCount (leWord tx'.window) →
    leWord tx.window &&& ~~~ continuationMask = leWord tx'.window &&& ~~~ continuationMask →
    decode64Response tx = decode64Response tx' ∧ decode32Response tx = decode32Response tx') ∧
  (∀ (w : Word) (l j : Nat), 1 ≤ l → l ≤ j → j < 8 →
    (∀ i, i < l - 1 → continues (lane w i) = true) → continues (lane w (l - 1)) = false →
    continues (lane w j) = true →
    l - 1 < flagCount w ∧
      (flagCount w < 8 →
        (extract (sel (flagCount w)) w).toNat = laneSum w (flagCount w + 1))) ∧
  (∀ tx : Inputs, tx.len = 8 → tx.window = #v[0x05, 0x81, 0, 0, 0, 0, 0, 0] →
    decode64Response tx = .ok 0x85)

/-- spec/30_encoding.md section 2 and spec/41_decoder.md: what DECODE64 returns for fewer than 8 flags is
the sum of the payloads of lanes `0..p`, 7 bits a lane, least significant first; its bits `7i+6..7i` are the
payload of lane `i`, and it never exceeds `2^56 - 1`. -/
def Obligations.DecodedValueIsTheSumOfPayloads : Prop :=
  ∀ (s : State) (x : UnitInstance) (tx : Inputs), Performing s x tx → 8 ≤ tx.len.toNat →
    flagCount (leWord tx.window) < 8 →
    ∃ v : Word, exec .decode64 s = .next (s.setUnit s.turn (x.answered (.ok v))) ∧
      v.toNat = laneSum (leWord tx.window) (flagCount (leWord tx.window) + 1) ∧
      v.toNat ≤ 2 ^ 56 - 1 ∧
      ∀ i, i ≤ flagCount (leWord tx.window) →
        v.extractLsb' (7 * i) 7 = payload (lane (leWord tx.window) i)

/-- spec/41_decoder.md (DECODE32) and spec/90_conflicts.md C3, C5: for at most 5 active bytes DECODE32
returns the low 32 bits of what DECODE64 returns, and for more it fails whatever DECODE64 does. -/
def Obligations.NarrowDecodeIsTheLowHalf : Prop :=
  ∀ (s : State) (x : UnitInstance) (tx : Inputs), Performing s x tx → 8 ≤ tx.len.toNat →
    (flagCount (leWord tx.window) ≤ 4 →
      ∃ v v' : Word, exec .decode64 s = .next (s.setUnit s.turn (x.answered (.ok v))) ∧
        exec .decode32 s = .next (s.setUnit s.turn (x.answered (.ok v'))) ∧
        v.toNat < 2 ^ 35 ∧ v'.toNat = v.toNat % 2 ^ 32) ∧
    (5 ≤ flagCount (leWord tx.window) →
      exec .decode32 s = .next (s.setUnit s.turn (x.answered (.error .varIntTooLong))))

/-- spec/41_decoder.md, the compatibility rule R67 (its last sentence is an inference the spec marks as its
own): where the set flags are exactly those of lanes `0..L-2`, DECODE64 returns what a reader that stops at
the first flag-clear byte returns. -/
def Obligations.StandardReaderAgreesWithDecode : Prop :=
  ∀ (s : State) (x : UnitInstance) (tx : Inputs) (l : Nat), Performing s x tx →
    8 ≤ tx.len.toNat → FlagsExactly (leWord tx.window) l →
    ∃ v : Word, exec .decode64 s = .next (s.setUnit s.turn (x.answered (.ok v))) ∧
      standardRead tx.window.toList = some v.toNat

/-! ### ENCODE and the ladders -/

/-- spec/42_encoder.md (ENCODE: encoding, pseudocode, corner cases and example): the response of ENCODE
from any state with the transaction outstanding. -/
def Obligations.EncodeCommand : Prop :=
  decode 0x04 = .ok .encode ∧
  (∀ (s : State) (x : UnitInstance) (tx : Inputs), Performing s x tx →
    (0xFFFFFFFFFFFFFF < tx.a.toNat →
      exec .encode s = .next (s.setUnit s.turn (x.answered (.error .valueTooLarge)))) ∧
    (tx.a.toNat ≤ 0xFFFFFFFFFFFFFF → exec .encode s = .next (s.setUnit s.turn
      (x.answered (.ok (deposit (pm (lenc tx.a)) tx.a ||| tf (lenc tx.a))))))) ∧
  (∀ tx : Inputs, tx.a = 0 → encodeResponse tx = .ok 0) ∧
  (∀ tx : Inputs, tx.a = 0xFFFFFFFFFFFFFF → encodeResponse tx = .ok 0x7FFFFFFFFFFFFFFF) ∧
  (∀ tx : Inputs, tx.a = 300 → encodeResponse tx = .ok 0x02AC) ∧
  (∀ k, 1 ≤ k → k ≤ 7 →
    lenc (BitVec.ofNat 64 (2 ^ (7 * k) - 1)) = k ∧ lenc (BitVec.ofNat 64 (2 ^ (7 * k))) = k + 1)

/-- spec/42_encoder.md, the byte-by-byte form of ENCODE (an inference the spec marks as its own): byte `i`
is payload `x[7i+6:7i]` with the flag set below `L - 1`, and zero from `L` on, `L` being the number of 7-bit
groups of `x`, at least 1. -/
def Obligations.EncodedBytesAreSevenBitGroups : Prop :=
  ∀ (s : State) (x : UnitInstance) (tx : Inputs) (l : Nat), Performing s x tx →
    1 ≤ l → l ≤ 8 → tx.a.toNat < 2 ^ (7 * l) → (l = 1 ∨ 2 ^ (7 * (l - 1)) ≤ tx.a.toNat) →
    ∃ word : Word, exec .encode s = .next (s.setUnit s.turn (x.answered (.ok word))) ∧
      ∀ i (h : i < 8), ((bytesOf word)[i]).toNat =
        if i < l then tx.a.toNat / 2 ^ (7 * i) % 2 ^ 7 + (if i < l - 1 then 0x80 else 0) else 0

/-- R77: ENCODE answers `ValueTooLarge`, status 3, exactly when `A > 0xFFFFFFFFFFFFFF`. -/
def Obligations.ValueTooLargeExactlyAboveTheLimit : Prop :=
  (∀ (s : State) (x : UnitInstance) (tx : Inputs), Performing s x tx →
    (exec .encode s = .next (s.setUnit s.turn (x.answered (.error .valueTooLarge))) ↔
      0xFFFFFFFFFFFFFF < tx.a.toNat)) ∧
  (Response.error .valueTooLarge).status = 3 ∧
  (Response.error .valueTooLarge).result? = none

/-- R70: bytes `L..7` of an ENCODE result are zero. -/
def Obligations.EncodeTrailingBytesAreZero : Prop :=
  ∀ (tx : Inputs) (word : Word) (i : Nat) (h : i < 8), encodeResponse tx = .ok word →
    lenc tx.a ≤ i → (bytesOf word)[i] = 0

/-- R69: the deposit of ENCODE sets no flag, keeps every bit of a value of its length's range, and `TF[L]`
sets the flag of every active byte except the last. -/
def Obligations.DepositKeepsTheValueAndSetsNoFlag : Prop :=
  (∀ (l : Nat) (x : Word), 1 ≤ l → l ≤ 8 → deposit (pm l) x &&& continuationMask = 0) ∧
  (∀ (row : LadderRow) (x : Word), row ∈ ladder → row.lo ≤ x.toNat → x.toNat ≤ row.hi →
    x.toNat < 2 ^ (7 * row.length) ∧ popcount (pm row.length) = 7 * row.length ∧
    extract (pm row.length) (deposit (pm row.length) x) = x) ∧
  (∀ l i : Nat, 1 ≤ l → l ≤ 8 → i < 8 →
    lane (tf l) i = if i < l - 1 then 0x80 else 0)

/-- R72: decoding what ENCODE answered gives the value back, for every value of at most 56 bits, on any
instance in any state. -/
def Obligations.EncodeThenDecodeRoundTrips : Prop :=
  ∀ (s : State) (x : UnitInstance) (tx : Inputs), Performing s x tx →
    tx.a.toNat ≤ 0xFFFFFFFFFFFFFF →
    ∃ word : Word, exec .encode s = .next (s.setUnit s.turn (x.answered (.ok word))) ∧
      ∀ (s' : State) (x' : UnitInstance) (tx' : Inputs), Performing s' x' tx' →
        tx'.window = bytesOf word → tx'.len = 8 →
        exec .decode64 s' = .next (s'.setUnit s'.turn (x'.answered (.ok tx.a)))

/-- spec/42_encoder.md R71, R73 (R73 is an inference the spec marks as its own): every ENCODE result is a
valid encoding of length `Lenc(x)`, the host recovers that length as 1 + the number of set flags, and a
standard reader reads `x` back. -/
def Obligations.EncodeResultsAreValidEncodings : Prop :=
  ∀ (tx : Inputs) (word : Word), encodeResponse tx = .ok word →
    ValidEncoding word (lenc tx.a) ∧ 1 + flagCount word = lenc tx.a ∧
    standardRead (bytesOf word).toList = some tx.a.toNat

/-- R55: for every valid encoding of length `L` the decoder's popcount is `L - 1` and its selector is the
encoder's payload mask; `TF[L]` has exactly `L - 1` bits set, and the deposit sets no flag bit. -/
def Obligations.ValidEncodingsPredictThePopcount : Prop :=
  ∀ l, 1 ≤ l → l ≤ 8 →
    (∀ w : Word, ValidEncoding w l → flagCount w = l - 1 ∧ sel (flagCount w) = pm l) ∧
    popcount (tf l) = l - 1 ∧
    (∀ x : Word, deposit (pm l) x &&& continuationMask = 0)

/-- spec/30_encoding.md section 2, the encoded length (its closed form is an inference the spec marks as its
own): the ranges tile `0..2^56 - 1`, each value lies in exactly the range of its length, and the length is
`ceil(bitlength(x) / 7)`. -/
def Obligations.LengthClassesTileTheValues : Prop :=
  ∀ x : Word, x.toNat ≤ 0xFFFFFFFFFFFFFF →
    (∃ row ∈ ladder, row.lo ≤ x.toNat ∧ x.toNat ≤ row.hi ∧ row.length = lenc x) ∧
    (∀ row ∈ ladder, row.lo ≤ x.toNat → x.toNat ≤ row.hi → row.length = lenc x) ∧
    lenc x = if x = 0 then 1 else (1 + Nat.log2 x.toNat + 6) / 7

/-- R52 and R53: the selector masks, the ladder's ranges, payload masks and terminator flags, number by
number; the sums that define them; and popcount 8, for which there is no selector, is a failure. -/
def Obligations.SelectorAndLadderTables : Prop :=
  (List.range 8).map sel =
    [0x000000000000007F, 0x0000000000007F7F, 0x00000000007F7F7F, 0x000000007F7F7F7F,
     0x0000007F7F7F7F7F, 0x00007F7F7F7F7F7F, 0x007F7F7F7F7F7F7F, 0x7F7F7F7F7F7F7F7F] ∧
  (∀ k, k < 8 → sel k = ((List.range (k + 1)).map fun i => (0x7F : Word) <<< (8 * i)).sum) ∧
  ladder.map (fun row => (row.length, row.lo, row.hi, pm row.length, tf row.length)) =
    [(1, 0x0, 0x7F, 0x7F, 0x00), (2, 0x80, 0x3FFF, 0x7F7F, 0x80),
     (3, 0x4000, 0x1FFFFF, 0x7F7F7F, 0x8080), (4, 0x200000, 0xFFFFFFF, 0x7F7F7F7F, 0x808080),
     (5, 0x10000000, 0x7FFFFFFFF, 0x7F7F7F7F7F, 0x80808080),
     (6, 0x800000000, 0x3FFFFFFFFFF, 0x7F7F7F7F7F7F, 0x8080808080),
     (7, 0x40000000000, 0x1FFFFFFFFFFFF, 0x7F7F7F7F7F7F7F, 0x808080808080),
     (8, 0x2000000000000, 0xFFFFFFFFFFFFFF, 0x7F7F7F7F7F7F7F7F, 0x80808080808080)] ∧
  (∀ l, 1 ≤ l → l ≤ 8 → pm l = sel (l - 1) ∧
    tf l = ((List.range (l - 1)).map fun i => (0x80 : Word) <<< (8 * i)).sum) ∧
  (∀ row ∈ ladder, row.hi = 2 ^ (7 * row.length) - 1 ∧
    row.lo = if row.length = 1 then 0 else 2 ^ (7 * (row.length - 1))) ∧
  (∀ tx : Inputs, 8 ≤ tx.len.toNat → flagCount (leWord tx.window) = 8 →
    decode64Response tx = .error .varIntTooLong)

/-! ### Byte order and what the host presents -/

/-- R31 and R32: both directions are little-endian, bit by bit, and each undoes the other. -/
def Obligations.LittleEndianBothWays : Prop :=
  (∀ (b : Window) (i j : Nat) (h : i < 8), j < 8 →
    (leWord b).getLsbD (8 * i + j) = (b[i]).getLsbD j) ∧
  (∀ (w : Word) (i : Nat) (h : i < 8), (bytesOf w)[i] = w.extractLsb' (8 * i) 8) ∧
  (∀ w : Word, leWord (bytesOf w) = w) ∧ (∀ b : Window, bytesOf (leWord b) = b)

/-- R29: for a buffer of `n` bytes the host presents `LEN = min(n, 15)` and `IN[i] = buf[i]` for `i < n`;
the other bytes are the event's own "anything" (log 11), and nothing of the buffer past index 7 is read. -/
def Obligations.HostPresentsTheBufferWindow : Prop :=
  ∀ (s : State) (u : Nat) (cmd : Byte) (a b : Word) (buf : List Byte) (fill : Window)
    (rest : List Event) (x : UnitInstance),
    s.script = .drive u ⟨cmd, .value a, .value b, .buffer buf fill⟩ :: rest →
    s.units[u]? = some x →
    ∃ ports : Inputs, step s = .next ({ s with script := rest }.setUnit u (x.driven ports)) ∧
      ports.cmd = cmd ∧ ports.a = a ∧ ports.b = b ∧ ports.len.toNat = min buf.length 15 ∧
      ∀ i (h : i < 8), ports.window[i] = if hb : i < buf.length then buf[i] else fill[i]

/-- R30: a decoder uses the window only when `LEN ≥ 8`, and never a byte at index 8 or above: short
buffers get `BufferTooShort` whatever the bytes, and buffers of 8 bytes or more with the same first 8 get the
same response. -/
def Obligations.DecodersUseOnlyTheWindow : Prop :=
  ∀ (bs : List (Nat × Response)) (cmd : Byte) (a b a' b' : Word) (buf buf' : List Byte)
    (fill fill' : Window), cmd = 0x02 ∨ cmd = 0x03 →
    ∃ tx tx' : Inputs,
      (⟨cmd, .value a, .value b, .buffer buf fill⟩ : Presentation).inputs bs = .ok tx ∧
      (⟨cmd, .value a', .value b', .buffer buf' fill'⟩ : Presentation).inputs bs = .ok tx' ∧
      (buf.length < 8 → respondTo tx = .error .bufferTooShort) ∧
      (8 ≤ buf.length → 8 ≤ buf'.length → buf.take 8 = buf'.take 8 →
        respondTo tx = respondTo tx' ∧ respondTo tx ≠ .error .bufferTooShort)

/-! ### Errors -/

/-- R75: both decoders answer `BufferTooShort`, status 1 and no value, exactly when `LEN < 8`, and so for
every buffer length 0..7. -/
def Obligations.BufferTooShortExactlyBelowEight : Prop :=
  (∀ (i : Instr) (s : State) (x : UnitInstance) (tx : Inputs), i = .decode64 ∨ i = .decode32 →
    Performing s x tx →
    (exec i s = .next (s.setUnit s.turn (x.answered (.error .bufferTooShort))) ↔
      tx.len.toNat < 8)) ∧
  (∀ n : Nat, (presentLen n).toNat < 8 ↔ n < 8) ∧
  (Response.error .bufferTooShort).status = 1 ∧
  (Response.error .bufferTooShort).result? = none

/-- R76: `VarIntTooLong`, status 2 and no value: DECODE64 exactly for 8 flags, DECODE32 exactly for 5 or
more, of a window that is long enough. -/
def Obligations.VarIntTooLongExactlyAboveTheCounts : Prop :=
  (∀ (s : State) (x : UnitInstance) (tx : Inputs), Performing s x tx →
    (exec .decode64 s = .next (s.setUnit s.turn (x.answered (.error .varIntTooLong))) ↔
      8 ≤ tx.len.toNat ∧ popcount (leWord tx.window &&& continuationMask) = 8) ∧
    (exec .decode32 s = .next (s.setUnit s.turn (x.answered (.error .varIntTooLong))) ↔
      8 ≤ tx.len.toNat ∧ 5 ≤ popcount (leWord tx.window &&& continuationMask))) ∧
  (Response.error .varIntTooLong).status = 2 ∧
  (Response.error .varIntTooLong).result? = none

/-- R79: the decoders never answer `ValueTooLarge`, ENCODE never `BufferTooShort` or `VarIntTooLong`, and
EXTRACT and DEPOSIT no error. -/
def Obligations.DecodeAndEncodeErrorsAreApart : Prop :=
  ∀ (i : Instr) (s t : State) (y : UnitInstance), exec i s = .next t → t.units[s.turn]? = some y →
    (i = .decode64 ∨ i = .decode32 → y.response ≠ some (.error .valueTooLarge)) ∧
    (i = .encode → y.response ≠ some (.error .bufferTooShort) ∧
      y.response ≠ some (.error .varIntTooLong)) ∧
    (i = .extract ∨ i = .deposit → ∃ v, y.response = some (.ok v))

/-- R81: `IllegalCommand` before `BufferTooShort` before `VarIntTooLong`; ENCODE has only
`ValueTooLarge` after `IllegalCommand`. -/
def Obligations.ErrorPriority : Prop :=
  ∀ (s : State) (u : Nat) (rest : List Event) (x : UnitInstance) (tx : Inputs),
    s.script = .perform u :: rest → Outstanding s u x tx →
    let after (r : Response) : Host.Outcome State Fault Refusal :=
      .next ({ s with script := rest, turn := u }.setUnit u (x.answered r))
    let count := popcount (leWord tx.window &&& continuationMask)
    (4 < tx.cmd.toNat → step s = after (.error .illegalCommand)) ∧
    (tx.cmd = 0x02 ∨ tx.cmd = 0x03 → tx.len.toNat < 8 →
      step s = after (.error .bufferTooShort)) ∧
    (tx.cmd = 0x02 → 8 ≤ tx.len.toNat → count = 8 → step s = after (.error .varIntTooLong)) ∧
    (tx.cmd = 0x03 → 8 ≤ tx.len.toNat → 5 ≤ count → step s = after (.error .varIntTooLong)) ∧
    (tx.cmd = 0x04 → 0xFFFFFFFFFFFFFF < tx.a.toNat → step s = after (.error .valueTooLarge))

/-- spec/10_state.md section 3: the codes of `STATUS`, of which 5, 6 and 7 are never driven, and which
responses have a value. -/
def Obligations.StatusCodes : Prop :=
  (∀ v, (Response.ok v).status = 0) ∧
  (Response.error .bufferTooShort).status = 1 ∧ (Response.error .varIntTooLong).status = 2 ∧
  (Response.error .valueTooLarge).status = 3 ∧ (Response.error .illegalCommand).status = 4 ∧
  ∀ r : Response, r.status.toNat ≤ 4

/-- R20: with a status other than `OK`, `RES` and `OUT` hold no value; with `OK`, `RES` is the whole
64-bit result and `OUT` its bytes, and the narrowed result is zero-extended. -/
def Obligations.NoResultOnAnError : Prop :=
  (∀ r : Response,
    (r.status ≠ 0 → r.result? = none ∧ r.out? = none) ∧
    (r.status = 0 → ∃ v, r = .ok v ∧ r.result? = some v ∧ r.out? = some (bytesOf v))) ∧
  (∀ (tx : Inputs) (v : Word), decode32Response tx = .ok v → v.extractLsb' 32 32 = 0)

/-- spec/30_encoding.md section 1 (the operands of the assembly syntax, `LEN = min(n, 15)`) and
spec/93_implementation_defined.md I7, I9: what the host reads where a value is there, for every source of
every port, and that it faults where none is. A word written out, or `RES(hN)` of a name bound to `ok(v)`,
stands on the port `A` or `B` it was given for; a window written out, `OUT(hN)` or a buffer stands on `IN`
with its length, cut to 15, on `LEN`. A name bound to an error, or to nothing, faults on each port. That it
faults, the faults' names, and that `A` is looked at before `B` and `B` before the window are the model's
(log 9, log 10); a response that is there is bound. -/
def Obligations.ReadingAnAbsentValueFaults : Prop :=
  ∀ (s : State) (u : Nat) (rest : List Event) (x : UnitInstance), s.units[u]? = some x →
    (∀ name, s.script = .receive u name :: rest →
      (x.response = none → step s = .fault .noResponse) ∧
      (∀ r, x.response = some r → step s = .next ({ s with script := rest }.bind name r))) ∧
    (∀ (cmd : Byte) (a b : WordSource) (w : WindowSource),
      s.script = .drive u ⟨cmd, a, b, w⟩ :: rest →
      (∀ (va vb : Word) (bytes : Window) (n : Nat), WordGives s.bindings a va →
        WordGives s.bindings b vb → WindowGives s.bindings w bytes n →
        step s = .next ({ s with script := rest }.setUnit u
          (x.driven ⟨cmd, va, vb, bytes, BitVec.ofNat 4 (min n 15)⟩))) ∧
      (∀ f, WordMissing s.bindings a f → step s = .fault f) ∧
      (∀ va f, WordGives s.bindings a va → WordMissing s.bindings b f → step s = .fault f) ∧
      (∀ va vb f, WordGives s.bindings a va → WordGives s.bindings b vb →
        WindowMissing s.bindings w f → step s = .fault f))

/-! ### Statelessness, frames and isolation -/

/-- R15: the response of a transaction is a function of its inputs alone: equal inputs get equal responses
in any two states, on any instances, and nothing of the transaction stays outstanding. -/
def Obligations.ResponseDependsOnlyOnInputs : Prop :=
  ∀ (s s' : State) (u u' : Nat) (rest rest' : List Event) (x x' : UnitInstance) (tx : Inputs),
    s.script = .perform u :: rest → s'.script = .perform u' :: rest' →
    Outstanding s u x tx → Outstanding s' u' x' tx →
    ∃ (t t' : State) (y y' : UnitInstance) (r : Response), step s = .next t ∧ step s' = .next t' ∧
      t.units[u]? = some y ∧ t'.units[u']? = some y' ∧ y.response = some r ∧
      y'.response = some r ∧ y.outstanding = none ∧ y'.outstanding = none

/-- R18: an input port that the operation does not read (the "read by" column of R16) has no effect on
the response. -/
def Obligations.UnreadPortsHaveNoEffect : Prop :=
  ∀ (i : Instr) (s s' : State) (x x' : UnitInstance) (tx tx' : Inputs),
    Performing s x tx → Performing s' x' tx' →
    ((i = .extract ∨ i = .deposit) ∧ tx.a = tx'.a ∧ tx.b = tx'.b ∨
      (i = .decode64 ∨ i = .decode32) ∧ tx.window = tx'.window ∧ tx.len = tx'.len ∨
      i = .encode ∧ tx.a = tx'.a) →
    ∃ r : Response, exec i s = .next (s.setUnit s.turn (x.answered r)) ∧
      exec i s' = .next (s'.setUnit s'.turn (x'.answered r))

/-- R36: the response is a function of the snapshot taken at issue: whatever the host drives on the ports
of an instance after it issued, the drive moves the ports and the transaction gets the response it would
have got. -/
def Obligations.InputsAreASnapshotAtIssue : Prop :=
  (∀ (s : State) (u : Nat) (rest : List Event) (x : UnitInstance), s.script = .issue u :: rest →
    s.units[u]? = some x → x.outstanding = none →
    ∃ t y, step s = .next t ∧ t.units[u]? = some y ∧ y.outstanding = some x.ports) ∧
  (∀ (s : State) (u : Nat) (p : Presentation) (rest : List Event) (x : UnitInstance)
    (tx ports : Inputs), s.script = .drive u p :: .perform u :: rest → Outstanding s u x tx →
    p.inputs s.bindings = .ok ports →
    ∃ (d t t' : State) (z y y' : UnitInstance) (r : Response), step s = .next d ∧
      core.run 2 s = .next t ∧ core.run 1 { s with script := .perform u :: rest } = .next t' ∧
      d.units[u]? = some z ∧ t.units[u]? = some y ∧ t'.units[u]? = some y' ∧
      z.ports = ports ∧ z.outstanding = some tx ∧ y.response = some r ∧ y'.response = some r)

/-- spec/60_exceptions.md R89 (at most one transaction outstanding; that the model refuses a second one is
its own choice, log 8): issuing samples all five ports of an idle instance, shows no response (log 5), leaves
the ports as last driven (log 18), and changes nothing else; a busy instance is refused. -/
def Obligations.IssueSamplesAnIdleInstance : Prop :=
  ∀ (s : State) (u : Nat) (rest : List Event) (x : UnitInstance), s.script = .issue u :: rest →
    s.units[u]? = some x →
    (x.outstanding = none → step s = .next ({ s with script := rest }.setUnit u
      { x with outstanding := some x.ports, response := none })) ∧
    (∀ tx, x.outstanding = some tx → step s = .refused .instanceBusy)

/-- The frame of all five instructions (spec/20_memory.md section 4 "No operation has a side effect",
spec/10_state.md R15, spec/60_exceptions.md R74): an instruction ends the transaction of the instance whose
turn it is and gives it a response. That instance's ports (the model's choice, log 18), every other
instance, the turn, the inputs still to come and the host's names stay as they were. -/
def Obligations.InstructionFrame : Prop :=
  ∀ (i : Instr) (s t : State), exec i s = .next t →
    t.turn = s.turn ∧ t.script = s.script ∧ t.bindings = s.bindings ∧
    t.units.length = s.units.length ∧
    (∀ v, v ≠ s.turn → t.units[v]? = s.units[v]?) ∧
    ∃ (x : UnitInstance) (tx : Inputs) (r : Response), Performing s x tx ∧
      t.units[s.turn]? = some { ports := x.ports, outstanding := none, response := some r }

/-- spec/60_exceptions.md section 5 (instances share no state) over the model's events (log 2): an event
changes no instance but its own, takes itself off the script, binds a name only if it receives, and moves the
ports only if it drives (log 18, and log 15 for reset). -/
def Obligations.EventFrame : Prop :=
  ∀ (s t : State) (e : Event) (rest : List Event), s.script = e :: rest → step s = .next t →
    t.script = rest ∧ t.units.length = s.units.length ∧
    (∀ v, v ≠ e.unit → t.units[v]? = s.units[v]?) ∧
    ((∀ u name, e ≠ .receive u name) → t.bindings = s.bindings) ∧
    ((∃ u name, e = .receive u name) → t.units = s.units) ∧
    ((∀ u p, e ≠ .drive u p) → t.units.map UnitInstance.ports = s.units.map UnitInstance.ports) ∧
    ((∀ u, e ≠ .perform u) → t.turn = s.turn)

/-- R37: no operation has a side effect, and the same transaction, driven and issued again after it was
answered, gives the same response; no other instance and no name of the host changes. -/
def Obligations.DrivingTheSameTransactionAgainGivesTheSameResponse : Prop :=
  ∀ (s : State) (u : Nat) (rest : List Event) (x : UnitInstance) (tx : Inputs),
    s.script = .perform u :: .drive u tx.presented :: .issue u :: .perform u :: rest →
    Outstanding s u x tx →
    ∃ (t t' : State) (y y' : UnitInstance) (r : Response),
      core.run 1 s = .next t ∧ core.run 4 s = .next t' ∧
      t.units[u]? = some y ∧ t'.units[u]? = some y' ∧
      y.response = some r ∧ y'.response = some r ∧ y.outstanding = none ∧ y'.outstanding = none ∧
      (∀ v, v ≠ u → t.units[v]? = s.units[v]? ∧ t'.units[v]? = s.units[v]?) ∧
      t.bindings = s.bindings ∧ t'.bindings = s.bindings

/-- spec/20_memory.md section 4 (idempotence), where the host does not drive the ports again: an instance
whose ports still hold the transaction it performs (the model's choice, log 18) and is issued again gives the
same response, and has changed nothing else. -/
def Obligations.RepeatedTransactionGivesTheSameResponse : Prop :=
  ∀ (s : State) (u : Nat) (rest : List Event) (x : UnitInstance),
    s.script = .perform u :: .issue u :: .perform u :: rest → Outstanding s u x x.ports →
    ∃ (t t' : State) (r : Response), core.run 1 s = .next t ∧ core.run 3 s = .next t' ∧
      t.units = s.units.set u (x.answered r) ∧ t'.units = t.units ∧
      t.bindings = s.bindings ∧ t'.bindings = s.bindings

/-- R84: after an error response the instance accepts its next transaction exactly as after an `OK`
response: the two runs end in the same state. -/
def Obligations.NextTransactionAfterAnErrorIsTheSame : Prop :=
  ∀ (s : State) (u : Nat) (rest : List Event) (x : UnitInstance) (k : ErrorKind) (v : Word),
    s.script = .issue u :: .perform u :: rest → s.units[u]? = some x → x.outstanding = none →
    ∃ t : State,
      core.run 2 (s.setUnit u { x with response := some (.error k) }) = .next t ∧
      core.run 2 (s.setUnit u { x with response := some (.ok v) }) = .next t ∧
      t.units[u]? = some (x.answered (respondTo x.ports))

/-- R39 and R96: whole transactions, one after the other, on one instance or on several: in every order
each gets the response its own inputs get alone. The events that carry them out (log 2) and the names that
hold the responses (log 10) are the model's. -/
def Obligations.EveryOrderGivesTheSameResponses : Prop :=
  ∀ (s : State) (ts ts' : List HostTransaction), ts.Perm ts' →
    (∀ x ∈ s.units, x.outstanding = none) → (∀ t ∈ ts, t.unit < s.units.length) →
    (ts.map HostTransaction.name).Nodup →
    ∃ e e' : State,
      core.run (4 * ts.length) { s with script := ts.flatMap HostTransaction.events } = .next e ∧
      core.run (4 * ts.length) { s with script := ts'.flatMap HostTransaction.events } = .next e' ∧
      ∀ t ∈ ts, e.bindings.lookup t.name = some (respondTo t.inputs) ∧
        e'.bindings.lookup t.name = some (respondTo t.inputs)

/-- spec/60_exceptions.md section 5 (any number of instances may each have one transaction outstanding
together, each as if it were alone) over the model's scheduling (log 2): the instances may perform in any
order, and the platform ends the same. -/
def Obligations.InstancesPerformInAnyOrder : Prop :=
  ∀ (s : State) (us us' : List Nat), us.Perm us' → (∀ u ∈ us, u < s.units.length) →
    ∃ t t' : State,
      core.run us.length { s with script := us.map Event.perform } = .next t ∧
      core.run us.length { s with script := us'.map Event.perform } = .next t' ∧
      t.units = t'.units ∧ t.bindings = t'.bindings ∧
      ∀ u x tx, u ∈ us → Outstanding s u x tx → t.units[u]? = some (x.answered (respondTo tx))

/-! ### Reset, the invariant and progress -/

/-- spec/70_reset_and_hazards.md section 1 and spec/10_state.md section 6 (after reset no outstanding
transaction and no value on the outputs): reset leaves the instance so and changes nothing else, the driven
ports included (log 15); an issue right after it is accepted and, with no new drive, samples the values driven
before the reset (log 15, log 18). -/
def Obligations.ResetLeavesTheInstanceReady : Prop :=
  ∀ (s : State) (u : Nat) (rest : List Event) (x : UnitInstance), s.script = .reset u :: rest →
    s.units[u]? = some x →
    step s = .next
      ({ s with script := rest }.setUnit u { x with outstanding := none, response := none }) ∧
    (∀ rest', rest = .issue u :: rest' →
      ∃ t y, core.run 2 s = .next t ∧ t.units[u]? = some y ∧ y.outstanding = some x.ports)

/-- spec/70_reset_and_hazards.md section 1 (a transaction cut off by reset) over the model's events (log 2): a
transaction outstanding when reset arrives gets no response, however often the instance may move (an idle
instance's move changes nothing, log 6), and a host that reads the outputs faults, in place of the waiting
for good of spec/93_implementation_defined.md I10 (log 9); issued again with no new drive, the transaction
its ports still hold (log 15 across the reset, log 18 after it) gets its response. -/
def Obligations.ResetCutsOffTheTransaction : Prop :=
  ∀ (s : State) (u n name : Nat) (x : UnitInstance) (tx : Inputs), Outstanding s u x tx →
    (∀ rest, s.script = .reset u :: (List.replicate n (.perform u) ++ .receive u name :: rest) →
      (∃ t y, core.run (n + 1) s = .next t ∧ t.units[u]? = some y ∧ y.outstanding = none ∧
        y.response = none) ∧
      core.run (n + 2) s = .fault .noResponse) ∧
    (∀ rest, s.script = .reset u :: .issue u :: .perform u :: rest →
      ∃ t y, core.run 3 s = .next t ∧ t.units[u]? = some y ∧
        y.response = some (respondTo x.ports))

/-- R92 and R93: whether or not a transaction was outstanding, after reset none is and there is no response
to it; the instance is ready to accept a transaction, and one the host then drives and issues gets the
response to its own inputs. No other instance and no name of the host changes. -/
def Obligations.ResetDropsTheTransactionAndTheNextIsAccepted : Prop :=
  ∀ (s : State) (u : Nat) (rest : List Event) (x : UnitInstance) (tx : Inputs),
    s.script = .reset u :: .drive u tx.presented :: .issue u :: .perform u :: rest →
    s.units[u]? = some x →
    ∃ (r i t : State) (yr yi yt : UnitInstance), step s = .next r ∧
      core.run 3 s = .next i ∧ core.run 4 s = .next t ∧
      r.units[u]? = some yr ∧ i.units[u]? = some yi ∧ t.units[u]? = some yt ∧
      yr.outstanding = none ∧ yr.response = none ∧ yi.outstanding = some tx ∧
      yt.response = some (respondTo tx) ∧
      (∀ v, v ≠ u → r.units[v]? = s.units[v]? ∧ t.units[v]? = s.units[v]?) ∧
      r.bindings = s.bindings ∧ t.bindings = s.bindings

/-- spec/10_state.md section 6 and spec/93_implementation_defined.md I9: right after reset no instance has a
transaction outstanding or a response, and a host that reads the outputs there reads nothing: the model
faults (log 9). -/
def Obligations.OutputsHoldNothingAfterReset : Prop :=
  (∀ x ∈ State.reset.units, x.outstanding = none ∧ x.response = none) ∧
  ∀ (u name : Nat) (rest : List Event), u < State.reset.units.length →
    step { State.reset with script := .receive u name :: rest } = .fault .noResponse

/-- The invariant holds right after reset (spec/00_scope.md R7, spec/10_state.md section 6; the silent busy
instance is log 5). -/
def Obligations.ResetMeetsTheInvariant : Prop := State.reset.Inv

/-- Every step keeps the invariant: the platform keeps its `N_UNITS` instances, the turn is one of theirs,
an instance with a transaction outstanding shows no response (log 5), and no name is bound twice (log 10). -/
def Obligations.EveryStepKeepsTheInvariant : Prop :=
  ∀ s t : State, s.Inv → step s = .next t → t.Inv

/-- Exactly the events of a host that keeps to the spec (spec/60_exceptions.md R89, spec/70_reset_and_hazards.md
R97, and the refusals and faults of log 8 to log 10) lead to a next state. -/
def Obligations.AdmissibleEventsAreThoseThatGoOn : Prop :=
  ∀ (s : State) (e : Event) (rest : List Event), s.script = e :: rest →
    (e.admissible s = true ↔ ∃ t, step s = .next t)

/-- spec/70_reset_and_hazards.md sections 3 and 4 ("every transaction ends"), with the model's order (log 7):
with no more input, after as many steps as there are transactions outstanding, every one of them has its
response and nothing else has changed but the turn, which moves to each instance that performs (log 3); from
then on the machine stays as it is. -/
def Obligations.EveryTransactionEnds : Prop :=
  ∀ s : State, s.script = [] →
    ∃ t : State, core.run (busyCount s.units) s = .next t ∧ step t = .next t ∧
      t.script = [] ∧ t.bindings = s.bindings ∧ t.units.length = s.units.length ∧
      ∀ (u : Nat) (x : UnitInstance), s.units[u]? = some x →
        (∀ tx, x.outstanding = some tx → t.units[u]? = some (x.answered (respondTo tx))) ∧
        (x.outstanding = none → t.units[u]? = some x)
end

