-- ==== Sys2Proof/Laws/Bits.lean ====
section
/-! SUPPORT. The words of the codec bit by bit: one lemma for each bit-level function, which later proofs
cite instead of unfolding it. -/

namespace Sys2Proof.Machine

/-- The bits of a word with one bit assigned. -/
theorem assignBit_bit (r : Word) (b : Bool) {i j : Nat} (hj : j < 64) :
    (assignBit r i b).getLsbD j = if j = i then b else r.getLsbD j := by
  by_cases h : j = i
  · subst h
    cases b <;> simp [assignBit, hj]
  · cases b <;> simp [assignBit, hj, h]

theorem rank_succ (v : Word) (n : Nat) : rank v (n + 1) = rank v n + (v.getLsbD n).toNat := rfl

/-- Counting further never counts less. -/
theorem rank_mono (v : Word) {m n : Nat} (h : m ≤ n) : rank v m ≤ rank v n := by
  induction n with
  | zero => simp [Nat.le_zero.mp h]
  | succ n ih =>
    rcases Nat.lt_or_ge m (n + 1) with hm | hm
    · exact Nat.le_trans (ih (by omega)) (by simp [rank_succ])
    · rw [Nat.le_antisymm h hm]

/-- Counting past a set bit counts more. -/
theorem rank_lt (v : Word) {i n : Nat} (hi : i < n) (hb : v.getLsbD i = true) :
    rank v i < rank v n :=
  Nat.lt_of_lt_of_le (by simp [rank_succ, hb]) (rank_mono v (show i + 1 ≤ n by omega))

/-- At most one is counted for each position. -/
theorem rank_le (v : Word) (n : Nat) : rank v n ≤ n := by
  induction n with
  | zero => simp [rank]
  | succ n ih =>
    have := Bool.toNat_le (v.getLsbD n)
    rw [rank_succ]; omega

/-- The `k` of the extract loop counts the selected positions. -/
theorem extractLoop_count (mask source : Word) (n : Nat) :
    (extractLoop mask source n).2 = rank mask n := by
  induction n with
  | zero => rfl
  | succ n ih =>
    simp only [extractLoop, extractStep, rank_succ]
    split <;> simp_all

/-- The `k` of the deposit loop counts the selected positions. -/
theorem depositLoop_count (mask packed : Word) (n : Nat) :
    (depositLoop mask packed n).2 = rank mask n := by
  induction n with
  | zero => rfl
  | succ n ih =>
    simp only [depositLoop, depositStep, rank_succ]
    split <;> simp_all

/-- The bits of the extract loop's result: each selected position gives the bit numbered by its rank,
and nothing stands above them. -/
theorem extractLoop_bits (mask source : Word) {n : Nat} (hn : n ≤ 64) :
    (∀ i, i < n → mask.getLsbD i = true →
      (extractLoop mask source n).1.getLsbD (rank mask i) = source.getLsbD i) ∧
    (∀ k, rank mask n ≤ k → (extractLoop mask source n).1.getLsbD k = false) := by
  induction n with
  | zero => simp [extractLoop]
  | succ n ih =>
    obtain ⟨ih1, ih2⟩ := ih (by omega)
    have hk : rank mask n < 64 := Nat.lt_of_le_of_lt (rank_le mask n) (by omega)
    have step : ∀ k, k < 64 → (extractLoop mask source (n + 1)).1.getLsbD k =
        if mask.getLsbD n = true ∧ k = rank mask n then source.getLsbD n
        else (extractLoop mask source n).1.getLsbD k := by
      intro k hk64
      simp only [extractLoop, extractStep]
      by_cases hm : mask.getLsbD n = true
      · simp [hm, assignBit_bit _ _ hk64, extractLoop_count]
      · simp [hm]
    constructor
    · intro i hi hb
      have hr : rank mask i < 64 := Nat.lt_of_le_of_lt (rank_le mask i) (by omega)
      rw [step _ hr]
      rcases Nat.lt_or_ge i n with hin | hin
      · have := rank_lt mask hin hb
        rw [if_neg (by omega), ih1 i hin hb]
      · have : i = n := by omega
        subst this
        simp [hb]
    · intro k hk'
      rcases Nat.lt_or_ge k 64 with hk64 | hk64
      · rw [step k hk64]
        rw [rank_succ] at hk'
        split
        · rename_i h
          rw [h.1] at hk'
          simp at hk'
          omega
        · exact ih2 k (by omega)
      · exact BitVec.getLsbD_of_ge _ _ hk64

/-- `extract` bit by bit: a selected position's bit lands at the number of selected positions below it. -/
theorem extract_rank (mask source : Word) {i : Nat} (hi : i < 64) (hb : mask.getLsbD i = true) :
    (extract mask source).getLsbD (rank mask i) = source.getLsbD i :=
  (extractLoop_bits mask source (Nat.le_refl 64)).1 i hi hb

/-- `extract` has no bit at or above the mask's popcount. -/
theorem extract_above (mask source : Word) {k : Nat} (hk : popcount mask ≤ k) :
    (extract mask source).getLsbD k = false :=
  (extractLoop_bits mask source (Nat.le_refl 64)).2 k hk

/-- The bits of the deposit loop's result. -/
theorem depositLoop_bits (mask packed : Word) {n : Nat} (hn : n ≤ 64) (i : Nat) :
    (depositLoop mask packed n).1.getLsbD i
      = (decide (i < n) && (mask.getLsbD i && packed.getLsbD (rank mask i))) := by
  induction n with
  | zero => simp [depositLoop]
  | succ n ih =>
    have ih := ih (by omega)
    rcases Nat.lt_or_ge i 64 with hi | hi
    · simp only [depositLoop, depositStep]
      by_cases hm : mask.getLsbD n = true
      · rw [if_pos hm, assignBit_bit _ _ hi, depositLoop_count]
        by_cases he : i = n
        · subst he; simp [hm]
        · have : decide (i < n + 1) = decide (i < n) := by simp; omega
          rw [if_neg he, ih, this]
      · rw [if_neg hm, ih]
        by_cases he : i = n
        · subst he; simp [hm]
        · have : decide (i < n + 1) = decide (i < n) := by simp; omega
          rw [this]
    · simp [BitVec.getLsbD_of_ge _ _ hi]

/-- `deposit` bit by bit: a selected position takes the bit numbered by its rank. -/
theorem deposit_rank (mask packed : Word) {i : Nat} (hi : i < 64) :
    (deposit mask packed).getLsbD i = (mask.getLsbD i && packed.getLsbD (rank mask i)) := by
  rw [deposit, depositLoop_bits mask packed (Nat.le_refl 64)]
  simp [hi]

/-- Every bit below the popcount is some selected position's. -/
theorem exists_rank_eq (v : Word) {n k : Nat} (hk : k < rank v n) :
    ∃ i, i < n ∧ v.getLsbD i = true ∧ rank v i = k := by
  induction n with
  | zero => simp [rank] at hk
  | succ n ih =>
    rcases Nat.lt_or_ge k (rank v n) with h | h
    · obtain ⟨i, hi, hb, hr⟩ := ih h
      exact ⟨i, by omega, hb, hr⟩
    · have hb : v.getLsbD n = true := by
        by_contra hb
        rw [rank_succ, Bool.eq_false_of_not_eq_true hb] at hk
        exact absurd hk (by simpa using h)
      exact ⟨n, by omega, hb, by simp [rank_succ, hb] at hk; omega⟩

/-- The bits of a pattern repeated in the first lanes. -/
theorem lanes_bit (pattern : Byte) (n j : Nat) (hj : j < 64) :
    (lanes pattern n).getLsbD j = (decide (j / 8 < n) && pattern.getLsbD (j % 8)) := by
  induction n with
  | zero => simp [lanes]
  | succ n ih =>
    simp only [lanes, BitVec.getLsbD_or, ih, BitVec.getLsbD_shiftLeft, BitVec.getLsbD_setWidth, hj,
      decide_true, Bool.true_and]
    rcases Nat.lt_trichotomy (j / 8) n with h | h | h
    · have h1 : j < 8 * n := by omega
      have h2 : j / 8 < n + 1 := by omega
      simp [h, h1, h2]
    · have h1 : ¬ j < 8 * n := by omega
      have h2 : j - 8 * n = j % 8 := by omega
      have h3 : j % 8 < 64 := by omega
      simp [h, h1, h2, h3]
    · have h1 : ¬ j < 8 * n := by omega
      have h2 : 8 ≤ j - 8 * n := by omega
      have h3 : ¬ j / 8 < n := by omega
      have h4 : ¬ j / 8 < n + 1 := by omega
      simp [h1, h3, h4, BitVec.getLsbD_of_ge pattern _ h2]

/-- A value in no row of the ladder is above `VMAX`, and one in a row is not. -/
theorem ladder_covers (x : Word) :
    (ladder.find? (fun row => row.holds x)).isSome = true ↔ x.toNat ≤ 0xFFFFFFFFFFFFFF := by
  simp only [ladder, List.find?_isSome, LadderRow.holds, List.mem_cons, List.not_mem_nil, or_false,
    exists_eq_or_imp, exists_eq_left, Bool.and_eq_true, decide_eq_true_eq]
  omega

/-- A value of at most 56 bits lies in its length's range. -/
theorem lenc_range {x : Word} (hx : x.toNat ≤ 0xFFFFFFFFFFFFFF) :
    1 ≤ lenc x ∧ lenc x ≤ 8 ∧ x.toNat < 2 ^ (7 * lenc x) ∧
      (lenc x = 1 ∨ 2 ^ (7 * (lenc x - 1)) ≤ x.toNat) := by
  have hs := (ladder_covers x).mpr hx
  obtain ⟨row, hrow⟩ := Option.isSome_iff_exists.mp hs
  have hmem := List.mem_of_find?_eq_some hrow
  have hholds := List.find?_some hrow
  have hlen : lenc x = row.length := by simp [lenc, hrow]
  rw [hlen]
  simp only [LadderRow.holds, Bool.and_eq_true, decide_eq_true_eq] at hholds
  simp only [ladder, List.mem_cons, List.not_mem_nil, or_false] at hmem
  rcases hmem with h | h | h | h | h | h | h | h <;> subst h <;> simp at hholds ⊢ <;> omega

end Sys2Proof.Machine
end

