-- ==== Sys2Proof/Laws/State.lean ====
section
/-! SUPPORT. What each update of the state leaves in each field, and what the tables of instances and
names hold after an update. -/

namespace Sys2Proof.Machine

section UnitUpdates
variable (x : UnitInstance) (tx : Inputs) (r : Response)

@[simp] theorem driven_ports : (x.driven tx).ports = tx := rfl
@[simp] theorem driven_outstanding : (x.driven tx).outstanding = x.outstanding := rfl
@[simp] theorem driven_response : (x.driven tx).response = x.response := rfl
@[simp] theorem issued_ports : x.issued.ports = x.ports := rfl
@[simp] theorem issued_outstanding : x.issued.outstanding = some x.ports := rfl
@[simp] theorem issued_response : x.issued.response = none := rfl
@[simp] theorem answered_ports : (x.answered r).ports = x.ports := rfl
@[simp] theorem answered_outstanding : (x.answered r).outstanding = none := rfl
@[simp] theorem answered_response : (x.answered r).response = some r := rfl
@[simp] theorem wasReset_ports : x.wasReset.ports = x.ports := rfl
@[simp] theorem wasReset_outstanding : x.wasReset.outstanding = none := rfl
@[simp] theorem wasReset_response : x.wasReset.response = none := rfl

end UnitUpdates

section StateUpdates
variable (s : State) (u : Nat) (x : UnitInstance) (name : Nat) (r : Response)

@[simp] theorem setUnit_units : (s.setUnit u x).units = s.units.set u x := rfl
@[simp] theorem setUnit_turn : (s.setUnit u x).turn = s.turn := rfl
@[simp] theorem setUnit_script : (s.setUnit u x).script = s.script := rfl
@[simp] theorem setUnit_bindings : (s.setUnit u x).bindings = s.bindings := rfl
@[simp] theorem bind_units : (s.bind name r).units = s.units := rfl
@[simp] theorem bind_turn : (s.bind name r).turn = s.turn := rfl
@[simp] theorem bind_script : (s.bind name r).script = s.script := rfl
@[simp] theorem bind_bindings :
    (s.bind name r).bindings = (name, r) :: s.bindings.filter (fun b => b.1 != name) := rfl

end StateUpdates

/-- An instance that is there is read back as it was written. -/
theorem setUnit_get_self {s : State} {u : Nat} {x y : UnitInstance} (h : s.units[u]? = some y) :
    (s.setUnit u x).units[u]? = some x := by
  have hlt : u < s.units.length := (List.getElem?_eq_some_iff.mp h).1
  simp [hlt]

/-- Writing one instance leaves every other as it was. -/
theorem setUnit_get_other {s : State} {u v : Nat} {x : UnitInstance} (h : v ≠ u) :
    (s.setUnit u x).units[v]? = s.units[v]? := by
  simp [List.getElem?_set_ne h.symm]

/-- A name just bound gives its response. -/
theorem bind_lookup_self (s : State) (name : Nat) (r : Response) :
    (s.bind name r).bindings.lookup name = some r := by
  simp

/-- Filtering out one name leaves the lookup of any other. -/
theorem lookup_filter_other {bs : List (Nat × Response)} {name other : Nat} (h : other ≠ name) :
    (bs.filter (fun b => b.1 != name)).lookup other = bs.lookup other := by
  induction bs with
  | nil => rfl
  | cons b bs ih =>
    obtain ⟨k, r⟩ := b
    by_cases hk : k = name
    · subst hk
      have : (other == k) = false := by simpa using h
      simp [List.lookup, ih, this]
    · by_cases ho : other = k
      · subst ho; simp [List.lookup, hk]
      · have : (other == k) = false := by simpa using ho
        simp [List.lookup, hk, this, ih]

/-- Binding one name leaves every other name as it was. -/
theorem bind_lookup_other {s : State} {name other : Nat} (r : Response) (h : other ≠ name) :
    (s.bind name r).bindings.lookup other = s.bindings.lookup other := by
  have : (other == name) = false := by simpa using h
  simp only [bind_bindings, List.lookup, this]
  exact lookup_filter_other h

/-- Binding keeps the names distinct. -/
theorem bind_names_nodup {s : State} (name : Nat) (r : Response)
    (h : (s.bindings.map Prod.fst).Nodup) : ((s.bind name r).bindings.map Prod.fst).Nodup := by
  simp only [bind_bindings, List.map_cons, List.nodup_cons]
  refine ⟨?_, h.sublist (List.filter_sublist.map Prod.fst)⟩
  simp

end Sys2Proof.Machine
end

