-- ==== Sys2Proof/Laws/Ops.lean ====
section
/-! SUPPORT. For each shared operation and each event, once, everything it can do. -/

namespace Sys2Proof.Machine

/-- An operation on an instance goes on only where the instance is there. -/
theorem withUnit_next {s t : State} {u : Nat}
    {f : UnitInstance → Host.Outcome State Fault Refusal} (h : s.withUnit u f = .next t) :
    ∃ x, s.units[u]? = some x ∧ f x = .next t := by
  unfold State.withUnit at h
  split at h
  · exact ⟨_, ‹_›, h⟩
  · cases h

/-- An operation on an instance that is there. -/
theorem withUnit_of_get {s : State} {u : Nat} {x : UnitInstance}
    {f : UnitInstance → Host.Outcome State Fault Refusal} (h : s.units[u]? = some x) :
    s.withUnit u f = f x := by
  simp [State.withUnit, h]

/-- Ending a transaction that is outstanding. -/
theorem answer_of_performing {f : Inputs → Response} {s : State} {x : UnitInstance} {tx : Inputs}
    (h : Performing s x tx) : answer f s = .next (s.setUnit s.turn (x.answered (f tx))) := by
  simp [answer, withUnit_of_get h.1, h.2]

/-- All that ending a transaction can do. -/
theorem answer_next {f : Inputs → Response} {s t : State} (h : answer f s = .next t) :
    ∃ x tx, Performing s x tx ∧ t = s.setUnit s.turn (x.answered (f tx)) := by
  obtain ⟨x, hx, h⟩ := withUnit_next h
  cases ho : x.outstanding with
  | none => simp [ho] at h
  | some tx =>
    simp only [ho, Host.Outcome.next.injEq] at h
    exact ⟨x, tx, ⟨hx, ho⟩, h.symm⟩

/-- Every instruction acts by ending its transaction with its response. -/
theorem exec_eq_answer (i : Instr) (s : State) : exec i s = answer (responseOf i) s := by
  cases i <;> rfl

/-- So does every command word, the illegal ones included. -/
theorem runCommand_eq_answer (tx : Inputs) (s : State) {x : UnitInstance}
    (h : Performing s x tx) :
    runCommand (decode tx.cmd) s = .next (s.setUnit s.turn (x.answered (respondTo tx))) := by
  cases hd : decode tx.cmd with
  | error e => simp [runCommand, answer_of_performing h, respondTo, hd]
  | ok i => simp [runCommand, exec_eq_answer, answer_of_performing h, respondTo, hd]

/-- An instance with a transaction outstanding performs it. -/
theorem performUnit_of_outstanding {s : State} {u : Nat} {x : UnitInstance} {tx : Inputs}
    (h : Outstanding s u x tx) :
    performUnit u s
      = .next ({ s with turn := u }.setUnit u (x.answered (respondTo tx))) := by
  rw [performUnit, withUnit_of_get h.1]
  simp only [h.2]
  exact runCommand_eq_answer tx { s with turn := u } ⟨h.1, h.2⟩

/-- An idle instance does nothing. -/
theorem performUnit_of_idle {s : State} {u : Nat} {x : UnitInstance} (hx : s.units[u]? = some x)
    (ho : x.outstanding = none) : performUnit u s = .next s := by
  simp [performUnit, withUnit_of_get hx, ho]

/-- All that performing can do. -/
theorem performUnit_next {s t : State} {u : Nat} (h : performUnit u s = .next t) :
    ∃ x, s.units[u]? = some x ∧
      ((x.outstanding = none ∧ t = s) ∨
        ∃ tx, x.outstanding = some tx ∧
          t = { s with turn := u }.setUnit u (x.answered (respondTo tx))) := by
  obtain ⟨x, hx, -⟩ := withUnit_next h
  refine ⟨x, hx, ?_⟩
  cases ho : x.outstanding with
  | none =>
    rw [performUnit_of_idle hx ho] at h
    exact .inl ⟨rfl, (Host.Outcome.next.inj h).symm⟩
  | some tx =>
    rw [performUnit_of_outstanding ⟨hx, ho⟩] at h
    exact .inr ⟨tx, rfl, (Host.Outcome.next.inj h).symm⟩

/-- All that driving can do. -/
theorem driveUnit_next {s t : State} {u : Nat} {p : Presentation} (h : driveUnit u p s = .next t) :
    ∃ x tx, s.units[u]? = some x ∧ p.inputs s.bindings = .ok tx ∧ t = s.setUnit u (x.driven tx) := by
  obtain ⟨x, hx, h⟩ := withUnit_next h
  cases hp : p.inputs s.bindings with
  | error f => simp [hp] at h
  | ok tx =>
    simp only [hp, Host.Outcome.next.injEq] at h
    exact ⟨x, tx, hx, rfl, h.symm⟩

/-- All that issuing can do. -/
theorem issueUnit_next {s t : State} {u : Nat} (h : issueUnit u s = .next t) :
    ∃ x, s.units[u]? = some x ∧ x.outstanding = none ∧ t = s.setUnit u x.issued := by
  obtain ⟨x, hx, h⟩ := withUnit_next h
  cases ho : x.outstanding with
  | some tx => simp [ho] at h
  | none =>
    simp only [ho, Host.Outcome.next.injEq] at h
    exact ⟨x, hx, ho, h.symm⟩

/-- All that receiving can do. -/
theorem receiveUnit_next {s t : State} {u name : Nat} (h : receiveUnit u name s = .next t) :
    ∃ x r, s.units[u]? = some x ∧ x.response = some r ∧ t = s.bind name r := by
  obtain ⟨x, hx, h⟩ := withUnit_next h
  cases hr : x.response with
  | none => simp [hr] at h
  | some r =>
    simp only [hr, Host.Outcome.next.injEq] at h
    exact ⟨x, r, hx, hr, h.symm⟩

/-- All that reset can do. -/
theorem resetUnit_next {s t : State} {u : Nat} (h : resetUnit u s = .next t) :
    ∃ x, s.units[u]? = some x ∧ t = s.setUnit u x.wasReset := by
  obtain ⟨x, hx, h⟩ := withUnit_next h
  exact ⟨x, hx, (Host.Outcome.next.inj h).symm⟩

/-- A name that has no value is read as its fault. -/
theorem resultOf_of_missing {bs : List (Nat × Response)} {name : Nat} {f : Fault}
    (h : NameMissing bs name f) : resultOf bs name = .error f := by
  cases h <;> simp [resultOf, *]

/-- A name bound to `ok` is read as its result. -/
theorem resultOf_of_ok {bs : List (Nat × Response)} {name : Nat} {v : Word}
    (h : bs.lookup name = some (.ok v)) : resultOf bs name = .ok v := by
  simp [resultOf, h]

/-- A word source is read as the word it gives. -/
theorem wordRead_of_gives {bs : List (Nat × Response)} {src : WordSource} {v : Word}
    (h : WordGives bs src v) : src.read bs = .ok v := by
  cases h with
  | value => rfl
  | res h => exact resultOf_of_ok h

/-- A word source that has no value is read as its fault. -/
theorem wordRead_of_missing {bs : List (Nat × Response)} {src : WordSource} {f : Fault}
    (h : WordMissing bs src f) : src.read bs = .error f := by
  cases h with
  | res h => exact resultOf_of_missing h

/-- The bytes the host presents for a buffer, one by one. -/
theorem presentBytes_byte (buf : List Byte) (fill : Window) (i : Nat) (hi : i < 8) :
    (presentBytes buf fill)[i] = if hb : i < buf.length then buf[i] else fill[i] := by
  have byte : (presentBytes buf fill)[i] = buf.getD i fill[i] := by
    match i, hi with
    | 0, _ | 1, _ | 2, _ | 3, _ | 4, _ | 5, _ | 6, _ | 7, _ => rfl
  rw [byte, List.getD_eq_getElem?_getD]
  split <;> simp [*]

/-- A window source is read as the bytes it gives, with `LEN = min(n, 15)`. -/
theorem windowRead_of_gives {bs : List (Nat × Response)} {src : WindowSource} {w : Window} {n : Nat}
    (h : WindowGives bs src w n) : src.read bs = .ok (w, presentLen n) := by
  cases h with
  | bytes => rfl
  | out n h => simp [WindowSource.read, resultOf_of_ok h]
  | buffer buf fill w h =>
    have : presentBytes buf fill = w := by
      ext i hi : 1
      rw [presentBytes_byte, h]
    simp [WindowSource.read, this]

/-- A window source that has no value is read as its fault. -/
theorem windowRead_of_missing {bs : List (Nat × Response)} {src : WindowSource} {f : Fault}
    (h : WindowMissing bs src f) : src.read bs = .error f := by
  cases h with
  | out h => simp [WindowSource.read, resultOf_of_missing h]

/-- Literal port values are presented as they are. -/
theorem presented_inputs (tx : Inputs) (bs : List (Nat × Response)) :
    tx.presented.inputs bs = .ok tx := by
  have hlen : presentLen tx.len.toNat = tx.len := by
    apply BitVec.eq_of_toNat_eq
    have := tx.len.isLt
    simp only [presentLen, BitVec.toNat_ofNat]
    omega
  simp [Inputs.presented, Presentation.inputs, WordSource.read, WindowSource.read, hlen]

/-- A step with an input to come. -/
theorem step_cons {s : State} {e : Event} {rest : List Event} (h : s.script = e :: rest) :
    step s = runEvent e { s with script := rest } := by
  simp [step, h]

/-- A step with none. -/
theorem step_nil {s : State} (h : s.script = []) : step s = drain s := by
  simp [step, h]

/-- All that going on without input can do. -/
theorem drain_next {s t : State} (h : drain s = .next t) :
    (firstBusy s.units = none ∧ t = s) ∨ ∃ u, firstBusy s.units = some u ∧ performUnit u s = .next t := by
  unfold drain at h
  split at h
  · exact .inr ⟨_, ‹_›, h⟩
  · exact .inl ⟨‹_›, (Host.Outcome.next.inj h).symm⟩

end Sys2Proof.Machine
end

