-- ==== Sys2Proof/Laws/PerInstr.lean ====
section
/-! SUPPORT. Facts about each instruction as syntax, one lemma a constructor. -/

namespace Sys2Proof.Laws.Encoding

/-- The command word of an instruction is well formed and has the instruction's own fields
(spec/30_encoding.md R44, R45). -/
def Statement (i : Instr) : Prop :=
  i.command.wf = true ∧ Command.ofByte (encode i) = i.command

theorem extract : Statement .extract := ⟨rfl, rfl⟩
theorem deposit : Statement .deposit := ⟨rfl, rfl⟩
theorem decode64 : Statement .decode64 := ⟨rfl, rfl⟩
theorem decode32 : Statement .decode32 := ⟨rfl, rfl⟩
theorem encode : Statement .encode := ⟨rfl, rfl⟩

end Sys2Proof.Laws.Encoding
end

