-- ==== Sys2Proof/Tests/Slice0.lean ====
section
/-! SUPPORT. The model's own tests. Expected values come from spec/95_test_vectors.md and the rules' own
examples; the words of the decode tests are written out bit by bit from spec/30_encoding.md R44, R45. The
second part shows, for each statement with hypotheses, concrete states that meet them. -/

namespace Sys2Proof.Tests

open Sys2Proof Sys2Proof.Machine

/-! ### Well-formedness: one ill-formed command for each check -/

theorem test_wf_refuses_reserved_bits : Command.wf { op := 0, rsv := 1 } = false := by decide
theorem test_wf_refuses_reserved_opcode : Command.wf { op := 5, rsv := 0 } = false := by decide
theorem test_wf_accepts_largest_opcode : Command.wf { op := 4, rsv := 0 } = true := by decide

/-! ### Decoding: `RSV` then `OP`, bit by bit -/

theorem test_decode_extract : decode 0b00000000 = .ok .extract := by rfl
theorem test_decode_deposit : decode 0b00000001 = .ok .deposit := by rfl
theorem test_decode_decode64 : decode 0b00000010 = .ok .decode64 := by rfl
theorem test_decode_decode32 : decode 0b00000011 = .ok .decode32 := by rfl
theorem test_decode_encode : decode 0b00000100 = .ok .encode := by rfl
theorem test_decode_refuses_op_5 : decode 0b00000101 = .error .reservedOpcode := by rfl
theorem test_decode_refuses_rsv : decode 0b10000010 = .error .reservedBits := by rfl
theorem test_table_word : decodeTableWord 8 0x04 = some .encode := by decide
theorem test_table_word_illegal : decodeTableWord 8 0x15 = none := by decide

/-! ### A small state and what a step answers -/

/-- One instance with `tx` outstanding, about to perform it. -/
def busy (tx : Inputs) : State :=
  { units := [{ ports := tx, outstanding := some tx, response := none }]
    turn := 0, script := [.perform 0], bindings := [] }

/-- The response of instance 0 after one step. -/
def answerOf (tx : Inputs) : Option Response :=
  match step (busy tx) with
  | .next t => (t.units[0]?).bind UnitInstance.response
  | _ => none

/-- An outcome's kind and, for a next state, what `f` reads of it. -/
def seen {α : Type} (f : State → α) : Host.Outcome State Fault Refusal → Except (Option Fault) α
  | .next t => .ok (f t)
  | .fault r => .error (some r)
  | .refused _ => .error none

/-- A window of zeros. -/
def zeros : Window := #v[0, 0, 0, 0, 0, 0, 0, 0]

/-! ### The five instructions: spec/95_test_vectors.md section 2 -/

theorem test_extract_alternate_bytes :
    answerOf ⟨0x00, 0xFF00FF00FF00FF00, 0x1122334455667788, zeros, 0⟩ = some (.ok 0x11335577) := by
  decide +kernel
theorem test_extract_flag_bits :
    answerOf ⟨0x00, 0x8080808080808080, 0x8000000000000080, zeros, 0⟩ = some (.ok 0x81) := by
  decide +kernel
theorem test_deposit_ignores_high_bits :
    answerOf ⟨0x01, 0x7F7F, 0x02AC, zeros, 0⟩ = some (.ok 0x52C) := by decide +kernel
theorem test_deposit_alternate_bytes :
    answerOf ⟨0x01, 0xFF00FF00FF00FF00, 0x1122334455667788, zeros, 0⟩
      = some (.ok 0x5500660077008800) := by decide +kernel
theorem test_decode64_global_popcount :
    answerOf ⟨0x02, 0, 0, #v[0x7F, 0xFF, 0xFF, 0xFF, 0xFF, 0xFF, 0xFF, 0xFF], 8⟩
      = some (.ok 0xFFFFFFFFFFFFFF) := by decide +kernel
theorem test_decode64_eight_flags :
    answerOf ⟨0x02, 0, 0, #v[0x80, 0x80, 0x80, 0x80, 0x80, 0x80, 0x80, 0x80], 8⟩
      = some (.error .varIntTooLong) := by decide +kernel
theorem test_decode32_truncates :
    answerOf ⟨0x03, 0, 0, #v[0x89, 0xCF, 0xAC, 0xF1, 0x24, 0, 0, 0], 8⟩
      = some (.ok 0x4E2B2789) := by decide +kernel
theorem test_decode32_six_active_bytes :
    answerOf ⟨0x03, 0, 0, #v[0x80, 0x80, 0x80, 0x80, 0x80, 0x01, 0, 0], 8⟩
      = some (.error .varIntTooLong) := by decide +kernel
theorem test_encode_five_bytes :
    answerOf ⟨0x04, 0x123456789, 0, zeros, 0⟩ = some (.ok 0x129A95CF89) := by decide +kernel
theorem test_encode_above_limit :
    answerOf ⟨0x04, 0x100000000000000, 0, zeros, 0⟩ = some (.error .valueTooLarge) := by
  decide +kernel

/-! ### Illegal words, priority and the first instruction after reset -/

theorem test_illegal_wins_over_short_buffer :
    answerOf ⟨0x22, 0, 0, zeros, 3⟩ = some (.error .illegalCommand) := by decide +kernel
theorem test_short_buffer_wins_over_flags :
    answerOf ⟨0x02, 0, 0, #v[0x80, 0x80, 0x80, 0x80, 0x80, 0x80, 0x80, 0x80], 7⟩
      = some (.error .bufferTooShort) := by decide +kernel
theorem test_encode_runs_first_after_reset :
    seen (fun t => (t.units[0]?).bind UnitInstance.response) (step (State.reset.withFetchWord 8 0x04))
      = .ok (some (.ok 0)) := by rfl

/-! ### The host's events -/

/-- One idle instance, with `h0` bound to an error and `h1` to 0x02AC, and one event to come. -/
def idle (e : Event) : State :=
  { units := [UnitInstance.reset], turn := 0, script := [e]
    bindings := [(0, .error .valueTooLarge), (1, .ok 0x02AC)] }

theorem test_drive_out_of_a_name :
    seen (fun t => (t.units[0]?).map fun x => (x.ports.window.toList, x.ports.len))
      (step (idle (.drive 0 ⟨0x02, .value 0, .value 0, .out 1 11⟩)))
      = .ok (some ([0xAC, 0x02, 0, 0, 0, 0, 0, 0], 11)) := by rfl
theorem test_drive_reading_an_error_faults :
    seen State.turn (step (idle (.drive 0 ⟨0x00, .value 0, .res 0, .bytes zeros 0⟩)))
      = .error (some .noResult) := by rfl
theorem test_receive_before_any_response_faults :
    seen State.turn (step (idle (.receive 0 2))) = .error (some .noResponse) := by rfl
theorem test_missing_unit_is_refused :
    seen State.turn (step (idle (.issue 1))) = .error none := by rfl

/-! ### Witnesses: the hypotheses of each statement are met by concrete states

`decodeTx`, `sevenFlags` and their like stand at the boundary values of the clauses they witness. -/

/-- DECODE64 or DECODE32 inputs. -/
def decodeTx (cmd : Byte) (w : Window) (len : BitVec 4) : Inputs := ⟨cmd, 0, 0, w, len⟩

def fourFlags : Window := #v[0xFF, 0xFF, 0xFF, 0xFF, 0x7F, 0, 0, 0]
def fiveFlags : Window := #v[0x80, 0x80, 0x80, 0x80, 0x80, 0x01, 0, 0]
def sevenFlags : Window := #v[0xFF, 0xFF, 0xFF, 0xFF, 0xFF, 0xFF, 0xFF, 0x7F]
def eightFlags : Window := #v[0xFF, 0xFF, 0xFF, 0xFF, 0xFF, 0xFF, 0xFF, 0xFF]

/-- The instance of `busy`. -/
def busyUnit (tx : Inputs) : UnitInstance := { ports := tx, outstanding := some tx, response := none }

/-- ENCODE inputs. -/
def encodeTx (x : Word) : Inputs := ⟨0x04, x, 0, zeros, 0⟩

theorem witness_StepRunsTheDecodedCommand :
    Outstanding (busy (encodeTx 300)) 0 (busyUnit (encodeTx 300)) (encodeTx 300) ∧
      decode (encodeTx 300).cmd = .ok .encode ∧ (busy (encodeTx 300)).script = [.perform 0] :=
  ⟨⟨rfl, rfl⟩, rfl, rfl⟩

theorem witness_StepRunsTheDecodedCommand_empty_script :
    Outstanding { busy (encodeTx 300) with
        units := [UnitInstance.reset, busyUnit (encodeTx 300)], script := [] } 1
        (busyUnit (encodeTx 300)) (encodeTx 300) ∧
      ∀ v y, v < 1 → [UnitInstance.reset, busyUnit (encodeTx 300)][v]? = some y →
        y.outstanding = none := by
  refine ⟨⟨rfl, rfl⟩, fun v y hv hy => ?_⟩
  obtain rfl : v = 0 := by omega
  obtain rfl : UnitInstance.reset = y := by simpa using hy
  rfl

theorem witness_IllegalWordsAnswerIllegalCommand :
    (busy (decodeTx 0x05 zeros 8)).script = [.perform 0] ∧
      Outstanding (busy (decodeTx 0x05 zeros 8)) 0 (busyUnit (decodeTx 0x05 zeros 8))
        (decodeTx 0x05 zeros 8) ∧
      5 ≤ ((0x05 : Byte).extractLsb' 0 4).toNat ∧ (0x10 : Byte).extractLsb' 4 4 ≠ 0 :=
  ⟨rfl, ⟨rfl, rfl⟩, by decide, by decide⟩

theorem witness_ExtractGathersSelectedBitsInOrder :
    (0x8000000000000000 : Word).getLsbD 63 = true ∧
      ((List.range 64).countP fun j => (0x8000000000000000 : Word).getLsbD j) ≤ 1 := by
  decide +kernel

theorem witness_ExtractCommand :
    Performing (busy ⟨0x00, 0x7F7F, 0x02AC, zeros, 0⟩) (busyUnit ⟨0x00, 0x7F7F, 0x02AC, zeros, 0⟩)
        ⟨0x00, 0x7F7F, 0x02AC, zeros, 0⟩ ∧
      (0x82AC : Word) &&& 0x7F7F = 0x02AC &&& 0x7F7F :=
  ⟨⟨rfl, rfl⟩, by decide⟩

theorem witness_DepositCommand :
    Performing (busy ⟨0x01, 0x7F7F, 0x12C, zeros, 0⟩) (busyUnit ⟨0x01, 0x7F7F, 0x12C, zeros, 0⟩)
        ⟨0x01, 0x7F7F, 0x12C, zeros, 0⟩ ∧
      ∀ k, k < popcount 0x7F7F → (0x12C : Word).getLsbD k = (0x412C : Word).getLsbD k := by
  refine ⟨⟨rfl, rfl⟩, ?_⟩
  have : popcount 0x7F7F = 14 := by decide +kernel
  rw [this]; decide

theorem witness_DecodeSixtyFourCommand :
    Performing (busy (decodeTx 0x02 sevenFlags 7)) (busyUnit (decodeTx 0x02 sevenFlags 7))
        (decodeTx 0x02 sevenFlags 7) ∧
      (decodeTx 0x02 sevenFlags 7).len.toNat < 8 ∧ 8 ≤ (decodeTx 0x02 sevenFlags 8).len.toNat ∧
      popcount (leWord eightFlags &&& 0x8080808080808080) = 8 ∧
      popcount (leWord sevenFlags &&& 0x8080808080808080) < 8 :=
  ⟨⟨rfl, rfl⟩, by decide, by decide, by decide +kernel, by decide +kernel⟩

theorem witness_DecodeSixtyFourCommand_other_lanes :
    flagCount 0x02AC = flagCount 0x800000000000022C ∧ flagCount 0x02AC < 8 ∧
      (0x02AC : Word) &&& sel (flagCount 0x02AC)
        = 0x800000000000022C &&& sel (flagCount 0x02AC) := by
  decide +kernel

theorem witness_DecodeThirtyTwoCommand :
    Performing (busy (decodeTx 0x03 fourFlags 8)) (busyUnit (decodeTx 0x03 fourFlags 8))
        (decodeTx 0x03 fourFlags 8) ∧
      (decodeTx 0x03 fourFlags 7).len.toNat < 8 ∧
      popcount (leWord fourFlags &&& 0x8080808080808080) < 5 ∧
      5 ≤ popcount (leWord fiveFlags &&& 0x8080808080808080) ∧
      flagCount (leWord fiveFlags) ≤ 7 :=
  ⟨⟨rfl, rfl⟩, by decide, by decide +kernel, by decide +kernel, by decide +kernel⟩

theorem witness_DecodersCountFlagsGlobally :
    flagCount (leWord #v[0x85, 0x01, 0, 0, 0, 0, 0, 0])
        = flagCount (leWord #v[0x05, 0x81, 0, 0, 0, 0, 0, 0]) ∧
      leWord #v[0x85, 0x01, 0, 0, 0, 0, 0, 0] &&& ~~~ continuationMask
        = leWord #v[0x05, 0x81, 0, 0, 0, 0, 0, 0] &&& ~~~ continuationMask := by
  decide +kernel

theorem witness_DecodersCountFlagsGlobally_overcount :
    continues (lane 0x8105 0) = false ∧ continues (lane 0x8105 1) = true ∧ flagCount 0x8105 < 8 := by
  decide +kernel

theorem witness_DecodedValueIsTheSumOfPayloads :
    Performing (busy (decodeTx 0x02 sevenFlags 8)) (busyUnit (decodeTx 0x02 sevenFlags 8))
        (decodeTx 0x02 sevenFlags 8) ∧ flagCount (leWord sevenFlags) < 8 :=
  ⟨⟨rfl, rfl⟩, by decide +kernel⟩

theorem witness_NarrowDecodeIsTheLowHalf :
    Performing (busy (decodeTx 0x03 fourFlags 15)) (busyUnit (decodeTx 0x03 fourFlags 15))
        (decodeTx 0x03 fourFlags 15) ∧ 8 ≤ (decodeTx 0x03 fourFlags 15).len.toNat ∧
      flagCount (leWord fourFlags) ≤ 4 ∧ 5 ≤ flagCount (leWord fiveFlags) :=
  ⟨⟨rfl, rfl⟩, by decide, by decide +kernel, by decide +kernel⟩

theorem witness_StandardReaderAgreesWithDecode :
    Performing (busy (decodeTx 0x02 sevenFlags 8)) (busyUnit (decodeTx 0x02 sevenFlags 8))
        (decodeTx 0x02 sevenFlags 8) ∧ FlagsExactly (leWord sevenFlags) 8 :=
  ⟨⟨rfl, rfl⟩, by decide +kernel⟩

theorem witness_EncodeCommand :
    Performing (busy (encodeTx 0xFFFFFFFFFFFFFF)) (busyUnit (encodeTx 0xFFFFFFFFFFFFFF))
        (encodeTx 0xFFFFFFFFFFFFFF) ∧
      (encodeTx 0xFFFFFFFFFFFFFF).a.toNat ≤ 0xFFFFFFFFFFFFFF ∧
      0xFFFFFFFFFFFFFF < (encodeTx 0x100000000000000).a.toNat :=
  ⟨⟨rfl, rfl⟩, by decide, by decide⟩

theorem witness_EncodedBytesAreSevenBitGroups :
    Performing (busy (encodeTx 0x80)) (busyUnit (encodeTx 0x80)) (encodeTx 0x80) ∧
      (encodeTx 0x80).a.toNat < 2 ^ (7 * 2) ∧ 2 ^ (7 * (2 - 1)) ≤ (encodeTx 0x80).a.toNat :=
  ⟨⟨rfl, rfl⟩, by decide, by decide⟩

theorem witness_ValueTooLargeExactlyAboveTheLimit :
    Performing (busy (encodeTx 0x100000000000000)) (busyUnit (encodeTx 0x100000000000000))
      (encodeTx 0x100000000000000) := ⟨rfl, rfl⟩

/-- An answered ENCODE, for the statements about its result. -/
theorem witness_EncodeTrailingBytesAreZero :
    encodeResponse (encodeTx 300) = .ok 0x02AC ∧ lenc (encodeTx 300).a ≤ 2 := by decide +kernel

theorem witness_DepositKeepsTheValueAndSetsNoFlag :
    (⟨8, 0x2000000000000, 0xFFFFFFFFFFFFFF⟩ : LadderRow) ∈ ladder ∧
      0x2000000000000 ≤ (0xFFFFFFFFFFFFFF : Word).toNat := by decide

theorem witness_EncodeThenDecodeRoundTrips :
    Performing (busy (encodeTx 300)) (busyUnit (encodeTx 300)) (encodeTx 300) ∧
      Performing (busy (decodeTx 0x02 (bytesOf 0x02AC) 8)) (busyUnit (decodeTx 0x02 (bytesOf 0x02AC) 8))
        (decodeTx 0x02 (bytesOf 0x02AC) 8) := ⟨⟨rfl, rfl⟩, rfl, rfl⟩

theorem witness_EncodeResultsAreValidEncodings : encodeResponse (encodeTx 0) = .ok 0 := by
  decide +kernel

theorem witness_ValidEncodingsPredictThePopcount :
    ValidEncoding 0x7F 1 ∧ ValidEncoding 0x7FFFFFFFFFFFFFFF 8 := by decide +kernel

theorem witness_LengthClassesTileTheValues :
    (0xFFFFFFFFFFFFFF : Word).toNat ≤ 0xFFFFFFFFFFFFFF ∧
      (⟨1, 0x0, 0x7F⟩ : LadderRow) ∈ ladder ∧ (0x7F : Word).toNat ≤ 0x7F := by decide

theorem witness_SelectorAndLadderTables :
    8 ≤ (decodeTx 0x02 eightFlags 8).len.toNat ∧ flagCount (leWord eightFlags) = 8 := by
  decide +kernel

/-- A state about to run `es`, with the idle instance of reset. -/
def idleRun (es : List Event) : State := { idle (.issue 0) with script := es }

theorem witness_HostPresentsTheBufferWindow :
    (idleRun [.drive 0 ⟨0x02, .value 0, .value 0, .buffer [0x81, 0x01] zeros⟩]).script
        = [.drive 0 ⟨0x02, .value 0, .value 0, .buffer [0x81, 0x01] zeros⟩] ∧
      (idleRun [.drive 0 ⟨0x02, .value 0, .value 0, .buffer [0x81, 0x01] zeros⟩]).units[0]?
        = some UnitInstance.reset := ⟨rfl, rfl⟩

theorem witness_DecodersUseOnlyTheWindow :
    ([1, 2, 3, 4, 5, 6, 7] : List Byte).length < 8 ∧
      ([1, 2, 3, 4, 5, 6, 7, 8] : List Byte).take 8 = [1, 2, 3, 4, 5, 6, 7, 8, 9].take 8 := by decide

theorem witness_BufferTooShortExactlyBelowEight :
    Performing (busy (decodeTx 0x02 zeros 7)) (busyUnit (decodeTx 0x02 zeros 7))
      (decodeTx 0x02 zeros 7) := ⟨rfl, rfl⟩

theorem witness_VarIntTooLongExactlyAboveTheCounts :
    Performing (busy (decodeTx 0x02 eightFlags 8)) (busyUnit (decodeTx 0x02 eightFlags 8))
      (decodeTx 0x02 eightFlags 8) := ⟨rfl, rfl⟩

theorem witness_DecodeAndEncodeErrorsAreApart :
    ∃ t y, exec .encode (busy (encodeTx 300)) = .next t ∧
      t.units[(busy (encodeTx 300)).turn]? = some y := ⟨_, _, rfl, rfl⟩

theorem witness_ErrorPriority :
    (busy (decodeTx 0x03 eightFlags 7)).script = [.perform 0] ∧
      Outstanding (busy (decodeTx 0x03 eightFlags 7)) 0 (busyUnit (decodeTx 0x03 eightFlags 7))
        (decodeTx 0x03 eightFlags 7) ∧
      4 < (decodeTx 0x05 zeros 0).cmd.toNat ∧ (decodeTx 0x03 eightFlags 7).len.toNat < 8 ∧
      popcount (leWord eightFlags &&& continuationMask) = 8 ∧
      5 ≤ popcount (leWord fiveFlags &&& continuationMask) ∧
      0xFFFFFFFFFFFFFF < (encodeTx 0x100000000000000).a.toNat :=
  ⟨rfl, ⟨rfl, rfl⟩, by decide, by decide, by decide +kernel, by decide +kernel, by decide⟩

theorem witness_NoResultOnAnError :
    (Response.error .illegalCommand).status ≠ 0 ∧ (Response.ok 5).status = 0 ∧
      decode32Response (decodeTx 0x03 fourFlags 8) = .ok 0xFFFFFFFF := by decide +kernel

theorem witness_ReadingAnAbsentValueFaults_receive :
    (idleRun [.receive 0 2]).units[0]? = some UnitInstance.reset ∧
      (idleRun [.receive 0 2]).script = [.receive 0 2] ∧ UnitInstance.reset.response = none ∧
      ((busyUnit (encodeTx 0)).answered (.ok 0)).response = some (.ok 0) := ⟨rfl, rfl, rfl, rfl⟩

/-- Every source of a port, `n` at and above the cut of `LEN`. -/
theorem witness_ReadingAnAbsentValueFaults_gives :
    WordGives (idleRun []).bindings (.res 1) 0x02AC ∧ WordGives (idleRun []).bindings (.value 5) 5 ∧
      WindowGives (idleRun []).bindings (.bytes zeros 16) zeros 16 ∧
      WindowGives (idleRun []).bindings (.out 1 15) (bytesOf 0x02AC) 15 ∧
      WindowGives (idleRun []).bindings (.buffer [] sevenFlags) sevenFlags 0 :=
  ⟨.res rfl, .value 5, .bytes _ _, .out _ rfl, .buffer _ _ _ fun _ _ => by simp⟩

theorem witness_ReadingAnAbsentValueFaults_missing :
    WordMissing (idleRun []).bindings (.res 0) .noResult ∧
      WordMissing (idleRun []).bindings (.res 2) .unboundName ∧
      WindowMissing (idleRun []).bindings (.out 0 8) .noResult ∧
      WindowMissing (idleRun []).bindings (.out 2 8) .unboundName :=
  ⟨.res (.error rfl), .res (.unbound rfl), .out (.error rfl), .out (.unbound rfl)⟩

theorem witness_ResponseDependsOnlyOnInputs :
    (busy (encodeTx 300)).script = [.perform 0] ∧
      Outstanding (busy (encodeTx 300)) 0 (busyUnit (encodeTx 300)) (encodeTx 300) ∧
      Outstanding { busy (encodeTx 300) with
          units := [UnitInstance.reset, busyUnit (encodeTx 300)], script := [.perform 1] } 1
        (busyUnit (encodeTx 300)) (encodeTx 300) := ⟨rfl, ⟨rfl, rfl⟩, rfl, rfl⟩

theorem witness_UnreadPortsHaveNoEffect :
    Performing (busy ⟨0x04, 300, 1, zeros, 0⟩) (busyUnit ⟨0x04, 300, 1, zeros, 0⟩)
        ⟨0x04, 300, 1, zeros, 0⟩ ∧
      Performing (busy ⟨0x04, 300, 2, eightFlags, 9⟩) (busyUnit ⟨0x04, 300, 2, eightFlags, 9⟩)
        ⟨0x04, 300, 2, eightFlags, 9⟩ := ⟨⟨rfl, rfl⟩, rfl, rfl⟩

theorem witness_InputsAreASnapshotAtIssue :
    (idleRun [.issue 0]).units[0]? = some UnitInstance.reset ∧
      UnitInstance.reset.outstanding = none ∧
      Outstanding { busy (encodeTx 300) with
          script := [.drive 0 (encodeTx 5).presented, .perform 0] } 0
        (busyUnit (encodeTx 300)) (encodeTx 300) ∧
      (encodeTx 5).presented.inputs [] = .ok (encodeTx 5) := ⟨rfl, rfl, ⟨rfl, rfl⟩, rfl⟩

theorem witness_IssueSamplesAnIdleInstance :
    (idleRun [.issue 0]).script = [.issue 0] ∧
      (idleRun [.issue 0]).units[0]? = some UnitInstance.reset ∧
      UnitInstance.reset.outstanding = none ∧
      (busyUnit (encodeTx 0)).outstanding = some (encodeTx 0) := ⟨rfl, rfl, rfl, rfl⟩

theorem witness_InstructionFrame : ∃ t, exec .encode (busy (encodeTx 300)) = .next t := ⟨_, rfl⟩

theorem witness_EventFrame : ∃ t, step (busy (encodeTx 300)) = .next t ∧
    (busy (encodeTx 300)).script = [.perform 0] := ⟨_, rfl, rfl⟩

theorem witness_RepeatedTransactionGivesTheSameResponse :
    Outstanding { busy (encodeTx 300) with script := [.perform 0, .issue 0, .perform 0] } 0
      (busyUnit (encodeTx 300)) (busyUnit (encodeTx 300)).ports := ⟨rfl, rfl⟩

theorem witness_DrivingTheSameTransactionAgainGivesTheSameResponse :
    Outstanding { busy (encodeTx 300) with
        script := [.perform 0, .drive 0 (encodeTx 300).presented, .issue 0, .perform 0] } 0
      (busyUnit (encodeTx 300)) (encodeTx 300) := ⟨rfl, rfl⟩

theorem witness_NextTransactionAfterAnErrorIsTheSame :
    (idleRun [.issue 0, .perform 0]).units[0]? = some UnitInstance.reset ∧
      (idleRun [.issue 0, .perform 0]).script = [.issue 0, .perform 0] ∧
      UnitInstance.reset.outstanding = none := ⟨rfl, rfl, rfl⟩

theorem witness_EveryOrderGivesTheSameResponses :
    ([⟨0, encodeTx 300, 0⟩, ⟨0, encodeTx 5, 1⟩] : List HostTransaction).Perm
        [⟨0, encodeTx 5, 1⟩, ⟨0, encodeTx 300, 0⟩] ∧
      (∀ x ∈ (idleRun []).units, x.outstanding = none) ∧ 0 < (idleRun []).units.length :=
  ⟨List.Perm.swap _ _ _, by decide, by decide⟩

theorem witness_InstancesPerformInAnyOrder :
    [0, 1].Perm [1, 0] ∧
      ∀ u ∈ [0, 1], u < [busyUnit (encodeTx 300), busyUnit (decodeTx 0x02 zeros 8)].length :=
  ⟨List.Perm.swap _ _ _, by decide⟩

theorem witness_ResetLeavesTheInstanceReady :
    (idleRun [.reset 0, .issue 0]).script = [.reset 0, .issue 0] ∧
      (idleRun [.reset 0, .issue 0]).units[0]? = some UnitInstance.reset := ⟨rfl, rfl⟩

theorem witness_ResetCutsOffTheTransaction :
    Outstanding { busy (encodeTx 300) with script := [.reset 0, .perform 0, .receive 0 4] } 0
      (busyUnit (encodeTx 300)) (encodeTx 300) := ⟨rfl, rfl⟩

theorem witness_ResetCutsOffTheTransaction_issued_again :
    Outstanding { busy (encodeTx 300) with script := [.reset 0, .issue 0, .perform 0] } 0
      (busyUnit (encodeTx 300)) (encodeTx 300) := ⟨rfl, rfl⟩

theorem witness_ResetDropsTheTransactionAndTheNextIsAccepted :
    Outstanding { busy (encodeTx 300) with
        script := [.reset 0, .drive 0 (encodeTx 5).presented, .issue 0, .perform 0] } 0
      (busyUnit (encodeTx 300)) (encodeTx 300) := ⟨rfl, rfl⟩

theorem witness_OutputsHoldNothingAfterReset : 0 < State.reset.units.length := by
  simp [State.reset]

/-- A platform of `N_UNITS` instances, the first with a transaction outstanding. -/
def busyPlatform : State :=
  { units := busyUnit (encodeTx 300) :: List.replicate Config.extraUnits UnitInstance.reset
    turn := 0, script := [.perform 0], bindings := [(3, .ok 7)] }

theorem witness_EveryStepKeepsTheInvariant :
    busyPlatform.Inv ∧ ∃ t, step busyPlatform = .next t := by
  refine ⟨⟨by simp [busyPlatform, Config.nUnits], by simp [busyPlatform], ?_,
    by simp [busyPlatform]⟩, _, rfl⟩
  intro x hx _
  rcases List.mem_cons.mp hx with rfl | h
  · rfl
  · rw [List.eq_of_mem_replicate h]; rfl

theorem witness_AdmissibleEventsAreThoseThatGoOn :
    (idleRun [.receive 0 2]).script = [.receive 0 2] ∧
      Event.admissible (idleRun []) (.issue 0) = true ∧
      Event.admissible (idleRun []) (.receive 0 2) = false := ⟨rfl, rfl, rfl⟩

theorem witness_EveryTransactionEnds :
    (idleRun []).script = [] ∧ busyCount (busy (encodeTx 300)).units = 1 := ⟨rfl, rfl⟩

end Sys2Proof.Tests
end

section
/-! The statements of spec/10_state.md on responses: what a response holds (R20), that it is a
function of the sampled inputs (R15), and that the ports an operation does not read leave it alone (R18). -/

namespace Sys2Proof.Machine

/-! ### What a response holds -/

section ResponseFields
variable (v : Word) (k : ErrorKind)

@[simp] theorem status_ok : (Response.ok v).status = 0 := rfl
@[simp] theorem status_error : (Response.error k).status = k.code := rfl
@[simp] theorem result?_ok : (Response.ok v).result? = some v := rfl
@[simp] theorem result?_error : (Response.error k).result? = none := rfl
@[simp] theorem out?_ok : (Response.ok v).out? = some (bytesOf v) := rfl
@[simp] theorem out?_error : (Response.error k).out? = none := rfl

end ResponseFields

/-- No error has the code of `OK` (R19). -/
@[simp] theorem errorCode_ne_zero (k : ErrorKind) : k.code ≠ 0#3 := by
  cases k <;> decide

/-- What DECODE32 computed when it answers a value: the buffer was long enough, the flags few enough,
and the value is the low half of the extracted word (R64). -/
theorem decode32Response_ok {tx : Inputs} {v : Word} (h : decode32Response tx = .ok v) :
    tx.tooShort = false ∧ flagCount tx.windowWord < 5 ∧
      v = ((extract (sel (flagCount tx.windowWord)) tx.windowWord).setWidth 32).setWidth 64 := by
  unfold decode32Response at h
  split at h
  · cases h
  next hlen =>
    dsimp only at h
    split at h
    · cases h
    next hflags =>
      exact ⟨Bool.eq_false_of_not_eq_true hlen, Nat.lt_of_not_le hflags, (Response.ok.inj h).symm⟩

/-- A word widened from 32 bits has a zero upper half. -/
theorem upperHalf_setWidth (w : BitVec 32) : (w.setWidth 64).extractLsb' 32 32 = 0 := by
  ext i hi
  simp

/-! ### The response is a function of the sampled inputs -/

/-- The step in which a unit performs its transaction. -/
theorem step_perform {s : State} {u : Nat} {rest : List Event} {x : UnitInstance} {tx : Inputs}
    (hs : s.script = .perform u :: rest) (h : Outstanding s u x tx) :
    step s = .next ({ s with script := rest, turn := u }.setUnit u (x.answered (respondTo tx))) := by
  rw [step_cons hs]
  exact performUnit_of_outstanding (s := { s with script := rest }) h

/-- The two inputs agree on the ports the operation reads (the "read by" column of R16). -/
def AgreeOnReadPorts (tx tx' : Inputs) : Instr → Prop
  | .extract | .deposit => tx.a = tx'.a ∧ tx.b = tx'.b
  | .decode64 | .decode32 => tx.window = tx'.window ∧ tx.len = tx'.len
  | .encode => tx.a = tx'.a

/-- The response looks at no other port. -/
theorem responseOf_eq_of_agree {i : Instr} {tx tx' : Inputs} (h : AgreeOnReadPorts tx tx' i) :
    responseOf i tx = responseOf i tx' := by
  obtain ⟨cmd, a, b, window, len⟩ := tx
  obtain ⟨cmd', a', b', window', len'⟩ := tx'
  cases i with
  | extract | deposit | decode64 | decode32 => obtain ⟨rfl, rfl⟩ := h; rfl
  | encode => cases h; rfl

/-- An instruction ends the outstanding transaction with its response to the sampled inputs. -/
theorem exec_of_performing (i : Instr) {s : State} {x : UnitInstance} {tx : Inputs}
    (h : Performing s x tx) :
    exec i s = .next (s.setUnit s.turn (x.answered (responseOf i tx))) := by
  rw [exec_eq_answer, answer_of_performing h]

/-! ### The obligations -/

/-- Settles O36, by the two forms of a response and the inversion of DECODE32. -/
theorem noResultOnAnError : Obligations.NoResultOnAnError := by
  refine ⟨fun r => ?_, fun tx v h => ?_⟩
  · cases r with
    | ok v => simp
    | error k => simp
  · obtain ⟨-, -, rfl⟩ := decode32Response_ok h
    exact upperHalf_setWidth _

/-- Settles O38: both units are answered `respondTo tx`. -/
theorem responseDependsOnlyOnInputs : Obligations.ResponseDependsOnlyOnInputs := by
  intro s s' u u' rest rest' x x' tx hs hs' h h'
  exact ⟨_, _, x.answered (respondTo tx), x'.answered (respondTo tx), respondTo tx,
    step_perform hs h, step_perform hs' h', setUnit_get_self h.1, setUnit_get_self h'.1,
    rfl, rfl, rfl, rfl⟩

/-- Settles O39: `responseOf` of the instruction looks at its own ports only. -/
theorem unreadPortsHaveNoEffect : Obligations.UnreadPortsHaveNoEffect := by
  intro i s s' x x' tx tx' h h' hports
  have hagree : AgreeOnReadPorts tx tx' i := by
    obtain ⟨rfl | rfl, hread⟩ | ⟨rfl | rfl, hread⟩ | ⟨rfl, hread⟩ := hports <;> exact hread
  refine ⟨responseOf i tx, exec_of_performing i h, ?_⟩
  rw [responseOf_eq_of_agree hagree]
  exact exec_of_performing i h'

end Sys2Proof.Machine
end

section
/-! Running the machine a few events at a time: `core.run` step by step, what each event of the host does
where it goes on, and the run of one whole transaction. -/

namespace Sys2Proof.Machine

/-! ### `core.run`, one step or several at a time -/

section AnyMachine
variable {M : Host.Core} {s t : M.State} {k : Nat} {o : Host.Outcome M.State M.Fault M.Refusal}

/-- A run is its first step and then the rest. -/
theorem coreRun_of_step (h : M.step s = .next t) (hrun : M.run k t = o) : M.run (k + 1) s = o := by
  rw [Host.Core.run, h]
  exact hrun

/-- A run is its first `m` steps and then the rest. -/
theorem coreRun_append {m : Nat} (h : M.run m s = .next t) (hrun : M.run k t = o) :
    M.run (m + k) s = o := by
  induction m generalizing s with
  | zero =>
    obtain rfl : s = t := Host.Outcome.next.inj h
    rwa [Nat.zero_add]
  | succ m ih =>
    rw [Nat.add_right_comm]
    rw [Host.Core.run] at h
    cases hs : M.step s with
    | next s' =>
      rw [hs] at h
      exact coreRun_of_step hs (ih h)
    | fault r => rw [hs] at h; cases h
    | refused r => rw [hs] at h; cases h

end AnyMachine

section ThisMachine
variable {s t : State} {k : Nat} {o : Host.Outcome State Fault Refusal}

theorem run_of_step (h : step s = .next t) (hrun : core.run k t = o) : core.run (k + 1) s = o :=
  coreRun_of_step (M := core) h hrun

/-- A run of one step that goes on. -/
theorem run_one_of_step (h : step s = .next t) : core.run 1 s = .next t :=
  run_of_step (k := 0) h rfl

theorem run_append {m : Nat} (h : core.run m s = .next t) (hrun : core.run k t = o) :
    core.run (m + k) s = o :=
  coreRun_append (M := core) h hrun

end ThisMachine

/-! ### The host's events, where they go on -/

/-- The step in which the host drives the ports of a unit. -/
theorem step_drive {s : State} {u : Nat} {p : Presentation} {rest : List Event} {x : UnitInstance}
    {ports : Inputs} (hs : s.script = .drive u p :: rest) (hx : s.units[u]? = some x)
    (hp : p.inputs s.bindings = .ok ports) :
    step s = .next ({ s with script := rest }.setUnit u (x.driven ports)) := by
  rw [step_cons hs, runEvent, driveUnit, withUnit_of_get (s := { s with script := rest }) hx]
  simp only [hp]

/-- The step in which the host issues to an idle unit. -/
theorem step_issue {s : State} {u : Nat} {rest : List Event} {x : UnitInstance}
    (hs : s.script = .issue u :: rest) (hx : s.units[u]? = some x) (ho : x.outstanding = none) :
    step s = .next ({ s with script := rest }.setUnit u x.issued) := by
  rw [step_cons hs, runEvent, issueUnit, withUnit_of_get (s := { s with script := rest }) hx]
  simp only [ho]

/-- The step in which the host receives a response that is there. -/
theorem step_receive {s : State} {u name : Nat} {rest : List Event} {x : UnitInstance}
    {r : Response} (hs : s.script = .receive u name :: rest) (hx : s.units[u]? = some x)
    (hr : x.response = some r) :
    step s = .next ({ s with script := rest }.bind name r) := by
  rw [step_cons hs, runEvent, receiveUnit, withUnit_of_get (s := { s with script := rest }) hx]
  simp only [hr]

/-! ### One transaction after the other -/

/-- A unit that was driven with `tx`, issued and performed: whatever it was before, it is idle and
holds the response to `tx`. -/
def UnitInstance.done (tx : Inputs) : UnitInstance :=
  { ports := tx, outstanding := none, response := some (respondTo tx) }

@[simp] theorem done_outstanding (tx : Inputs) : (UnitInstance.done tx).outstanding = none := rfl
@[simp] theorem done_response (tx : Inputs) :
    (UnitInstance.done tx).response = some (respondTo tx) := rfl

/-- An idle unit driven, issued and performed. -/
theorem run_driveIssuePerform {s : State} {u : Nat} {tx : Inputs} {rest : List Event}
    {x : UnitInstance} (hs : s.script = .drive u tx.presented :: .issue u :: .perform u :: rest)
    (hx : s.units[u]? = some x) (ho : x.outstanding = none) :
    core.run 3 s = .next ({ s with script := rest, turn := u }.setUnit u (.done tx)) := by
  refine run_of_step (step_drive hs hx (presented_inputs tx _)) ?_
  refine run_of_step (step_issue rfl (setUnit_get_self hx) ho) ?_
  refine run_of_step (k := 0)
    (step_perform rfl ⟨setUnit_get_self (setUnit_get_self hx), issued_outstanding _⟩)
    (congrArg Host.Outcome.next ?_)
  simp only [State.setUnit, List.set_set]
  rfl

/-- No unit has a transaction outstanding. -/
def State.Idle (s : State) : Prop := ∀ x ∈ s.units, x.outstanding = none

/-- Writing an idle unit leaves all of them idle. -/
theorem idle_setUnit {s : State} (h : s.Idle) (u : Nat) {x : UnitInstance}
    (hx : x.outstanding = none) : (s.setUnit u x).Idle := fun _ hy =>
  (List.mem_or_eq_of_mem_set hy).elim (h _) fun heq => heq ▸ hx

/-- The state after a whole transaction, all of the script but `rest` being taken off. -/
def State.afterTransaction (s : State) (t : HostTransaction) (rest : List Event) : State :=
  ({ s with script := rest, turn := t.unit }.setUnit t.unit (.done t.inputs)).bind t.name
    (respondTo t.inputs)

@[simp] theorem afterTransaction_length (s : State) (t : HostTransaction) (rest : List Event) :
    (s.afterTransaction t rest).units.length = s.units.length := by
  simp [State.afterTransaction]

theorem afterTransaction_idle {s : State} (h : s.Idle) (t : HostTransaction) (rest : List Event) :
    (s.afterTransaction t rest).Idle :=
  idle_setUnit (s := { s with script := rest, turn := t.unit }) h t.unit (done_outstanding _)

theorem afterTransaction_lookup_self (s : State) (t : HostTransaction) (rest : List Event) :
    (s.afterTransaction t rest).bindings.lookup t.name = some (respondTo t.inputs) :=
  bind_lookup_self _ _ _

theorem afterTransaction_lookup_other (s : State) {t : HostTransaction} (rest : List Event)
    {name : Nat} (h : name ≠ t.name) :
    (s.afterTransaction t rest).bindings.lookup name = s.bindings.lookup name :=
  bind_lookup_other _ h

/-- A whole transaction on an idle platform. -/
theorem run_transaction {s : State} {t : HostTransaction} {rest : List Event}
    (hs : s.script = t.events ++ rest) (hidle : s.Idle) (hu : t.unit < s.units.length) :
    core.run 4 s = .next (s.afterTransaction t rest) := by
  have hx : s.units[t.unit]? = some s.units[t.unit] := List.getElem?_eq_getElem hu
  have h3 := run_driveIssuePerform hs hx (hidle _ (List.getElem_mem hu))
  exact run_append (k := 1) h3
    (run_one_of_step (step_receive rfl (setUnit_get_self hx) (done_response _)))

/-- Whole transactions under distinct names, one after the other: each name is bound to the response of
its own transaction, every other name as it was. -/
theorem run_transactions {s : State} {ts : List HostTransaction}
    (hs : s.script = ts.flatMap HostTransaction.events) (hidle : s.Idle)
    (hunits : ∀ t ∈ ts, t.unit < s.units.length)
    (hnames : (ts.map HostTransaction.name).Nodup) :
    ∃ e, core.run (4 * ts.length) s = .next e ∧
      (∀ t ∈ ts, e.bindings.lookup t.name = some (respondTo t.inputs)) ∧
      ∀ name ∉ ts.map HostTransaction.name, e.bindings.lookup name = s.bindings.lookup name := by
  induction ts generalizing s with
  | nil => exact ⟨s, rfl, by simp, by simp⟩
  | cons t ts ih =>
    obtain ⟨hfresh, hnames⟩ := List.nodup_cons.mp hnames
    have hu := hunits t List.mem_cons_self
    have hfirst := run_transaction hs hidle hu
    obtain ⟨e, hrun, hbound, hkept⟩ := ih (s := s.afterTransaction t _) rfl
      (afterTransaction_idle hidle t _)
      (by simpa using fun t' ht' => hunits t' (List.mem_cons_of_mem t ht')) hnames
    refine ⟨e, ?_, ?_, ?_⟩
    · rw [List.length_cons, Nat.mul_succ, Nat.add_comm]
      exact run_append hfirst hrun
    · refine List.forall_mem_cons.mpr ⟨?_, hbound⟩
      rw [hkept _ hfresh, afterTransaction_lookup_self]
    · intro name hname
      obtain ⟨hne, hnot⟩ := List.ne_and_not_mem_of_not_mem_cons hname
      rw [hkept _ hnot, afterTransaction_lookup_other s _ hne]

/-! ### The obligations -/

/-- Settles O46: each order is a run of whole transactions, and `run_transactions` says the same of every
such list. -/
theorem everyOrderGivesTheSameResponses : Obligations.EveryOrderGivesTheSameResponses := by
  intro s ts ts' hperm hidle hunits hnames
  obtain ⟨e, hrun, hbound, -⟩ := run_transactions
    (s := { s with script := ts.flatMap HostTransaction.events }) rfl hidle hunits hnames
  obtain ⟨e', hrun', hbound', -⟩ := run_transactions
    (s := { s with script := ts'.flatMap HostTransaction.events }) rfl hidle
    (fun t ht => hunits t (hperm.mem_iff.mpr ht)) ((hperm.map _).nodup_iff.mp hnames)
  exact ⟨e, e', hrun, hperm.length_eq ▸ hrun', fun t ht =>
    ⟨hbound t ht, hbound' t (hperm.mem_iff.mp ht)⟩⟩

/-- Settles O55: the first perform leaves the unit idle with the response to `tx`, and a second
transaction of the same inputs runs from there. -/
theorem drivingTheSameTransactionAgainGivesTheSameResponse :
    Obligations.DrivingTheSameTransactionAgainGivesTheSameResponse := by
  intro s u rest x tx hs h
  have hfirst := step_perform hs h
  refine ⟨_, _, x.answered (respondTo tx), .done tx, respondTo tx, run_one_of_step hfirst,
    run_of_step hfirst (run_driveIssuePerform rfl (setUnit_get_self h.1) rfl),
    setUnit_get_self h.1, setUnit_get_self (setUnit_get_self h.1), rfl, rfl, rfl, rfl,
    fun v hv => ⟨?_, ?_⟩, rfl, rfl⟩
  · exact setUnit_get_other hv
  · exact (setUnit_get_other hv).trans (setUnit_get_other hv)

/-- Settles O40: a drive writes the ports and keeps what is outstanding, and the response is a function of
what is outstanding. -/
theorem inputsAreASnapshotAtIssue : Obligations.InputsAreASnapshotAtIssue := by
  refine ⟨fun s u rest x hs hx ho => ?_, fun s u p rest x tx ports hs h hp => ?_⟩
  · exact ⟨_, x.issued, step_issue hs hx ho, setUnit_get_self hx, rfl⟩
  · have hdrive := step_drive hs h.1 hp
    have hget := setUnit_get_self (s := { s with script := .perform u :: rest })
      (x := x.driven ports) h.1
    have hperform := step_perform (x := x.driven ports) rfl ⟨hget, h.2⟩
    have hundriven := step_perform (s := { s with script := .perform u :: rest }) rfl h
    exact ⟨_, _, _, x.driven ports, (x.driven ports).answered (respondTo tx),
      x.answered (respondTo tx), respondTo tx, hdrive,
      run_of_step hdrive (run_one_of_step hperform), run_one_of_step hundriven,
      hget, setUnit_get_self hget, setUnit_get_self h.1, rfl, h.2, rfl, rfl⟩

end Sys2Proof.Machine
end

section
/-! The statements of spec/20_memory.md on bytes: the little-endian views of a word (R31, R32), what the
host presents for a buffer (R29), and what of it a decoder uses (R30). -/

namespace Sys2Proof.Machine

/-! ### Little-endian words, bit by bit -/

/-- A byte shifted to lane `k` has its own bits there and none elsewhere. -/
theorem shiftedByte_bit (b : Byte) {i j k n : Nat} (hn : n = 8 * k) (hi : i < 8) (hj : j < 8) :
    (b.setWidth 64 <<< n).getLsbD (8 * i + j) = (decide (i = k) && b.getLsbD j) := by
  subst hn
  simp only [BitVec.getLsbD_shiftLeft, BitVec.getLsbD_setWidth]
  rcases Nat.lt_trichotomy i k with h | rfl | h
  · simp [show 8 * i + j < 8 * k by omega, show i ≠ k by omega]
  · simp [show 8 * i + j < 64 by omega, show j < 64 by omega]
  · have habove : b.getLsbD (8 * i + j - 8 * k) = false := BitVec.getLsbD_of_ge _ _ (by omega)
    simp [habove, show i ≠ k by omega]

/-- Bit `j` of lane `i` of the window word is bit `j` of byte `i` (R31). -/
theorem leWord_bit (b : Window) {i j : Nat} (hi : i < 8) (hj : j < 8) :
    (leWord b).getLsbD (8 * i + j) = (b[i]).getLsbD j := by
  have h0 : b[0].setWidth 64 = b[0].setWidth 64 <<< 0 := (BitVec.shiftLeft_zero _).symm
  rw [leWord, h0]
  simp only [BitVec.getLsbD_or, shiftedByte_bit _ (k := 0) rfl hi hj,
    shiftedByte_bit _ (k := 1) rfl hi hj, shiftedByte_bit _ (k := 2) rfl hi hj,
    shiftedByte_bit _ (k := 3) rfl hi hj, shiftedByte_bit _ (k := 4) rfl hi hj,
    shiftedByte_bit _ (k := 5) rfl hi hj, shiftedByte_bit _ (k := 6) rfl hi hj,
    shiftedByte_bit _ (k := 7) rfl hi hj]
  match i, hi with
  | 0, _ | 1, _ | 2, _ | 3, _ | 4, _ | 5, _ | 6, _ | 7, _ => simp

/-- Byte `i` of the byte view is lane `i` of the word (R32). -/
theorem bytesOf_byte (w : Word) {i : Nat} (hi : i < 8) :
    (bytesOf w)[i] = w.extractLsb' (8 * i) 8 := by
  match i, hi with
  | 0, _ | 1, _ | 2, _ | 3, _ | 4, _ | 5, _ | 6, _ | 7, _ => rfl

theorem leWord_bytesOf (w : Word) : leWord (bytesOf w) = w := by
  apply BitVec.eq_of_getLsbD_eq
  intro n hn
  have hlane : n / 8 < 8 := by omega
  have hbit : n % 8 < 8 := by omega
  calc (leWord (bytesOf w)).getLsbD n
      = (leWord (bytesOf w)).getLsbD (8 * (n / 8) + n % 8) := by rw [Nat.div_add_mod]
    _ = (w.extractLsb' (8 * (n / 8)) 8).getLsbD (n % 8) := by
        rw [leWord_bit _ hlane hbit, bytesOf_byte _ hlane]
    _ = w.getLsbD n := by
        rw [BitVec.getLsbD_extractLsb', Nat.div_add_mod]
        simp [hbit]

theorem bytesOf_leWord (b : Window) : bytesOf (leWord b) = b := by
  ext i hi j hj : 2
  rw [bytesOf_byte _ hi, ← BitVec.getLsbD_eq_getElem, ← BitVec.getLsbD_eq_getElem,
    BitVec.getLsbD_extractLsb', leWord_bit b hi hj]
  simp [hj]

/-! ### What the host presents for a buffer -/

theorem presentLen_toNat (n : Nat) : (presentLen n).toNat = min n 15 := by
  rw [presentLen, BitVec.toNat_ofNat]
  omega

/-- `LEN = min(n, 15)` is below 8 exactly when `n` is. -/
theorem presentLen_lt_eight (n : Nat) : (presentLen n).toNat < 8 ↔ n < 8 := by
  rw [presentLen_toNat]
  omega

/-- The ports on which the host presents literal operands and a buffer. -/
def bufferInputs (cmd : Byte) (a b : Word) (buf : List Byte) (fill : Window) : Inputs :=
  ⟨cmd, a, b, presentBytes buf fill, presentLen buf.length⟩

theorem inputs_buffer (bs : List (Nat × Response)) (cmd : Byte) (a b : Word) (buf : List Byte)
    (fill : Window) :
    (⟨cmd, .value a, .value b, .buffer buf fill⟩ : Presentation).inputs bs
      = .ok (bufferInputs cmd a b buf fill) := rfl

theorem bufferInputs_tooShort (cmd : Byte) (a b : Word) (buf : List Byte) (fill : Window) :
    (bufferInputs cmd a b buf fill).tooShort = decide (buf.length < 8) :=
  decide_eq_decide.mpr (presentLen_lt_eight buf.length)

/-- A buffer of at least 8 bytes is presented as its first 8, whatever the fill. -/
theorem presentBytes_eq_of_take {buf buf' : List Byte} (fill fill' : Window)
    (h : 8 ≤ buf.length) (h' : 8 ≤ buf'.length) (htake : buf.take 8 = buf'.take 8) :
    presentBytes buf fill = presentBytes buf' fill' := by
  ext i hi : 1
  have hbyte : buf[i]? = buf'[i]? := by
    rw [← List.getElem?_take_of_lt hi, htake, List.getElem?_take_of_lt hi]
  have hlt : i < buf.length := Nat.lt_of_lt_of_le hi h
  have hlt' : i < buf'.length := Nat.lt_of_lt_of_le hi h'
  rw [presentBytes_byte, presentBytes_byte, dif_pos hlt, dif_pos hlt']
  simpa [hlt, hlt'] using hbyte

/-! ### What a decoder uses of the window -/

/-- A legal command word is answered by its operation. -/
theorem respondTo_of_decode {tx : Inputs} {i : Instr} (h : decode tx.cmd = .ok i) :
    respondTo tx = responseOf i tx := by
  simp [respondTo, h]

/-- DECODE64 after the length check (R63). -/
theorem decode64Response_of_long {tx : Inputs} (h : tx.tooShort = false) :
    decode64Response tx =
      if flagCount tx.windowWord = 8 then .error .varIntTooLong
      else .ok (extract (sel (flagCount tx.windowWord)) tx.windowWord) := by
  rw [decode64Response, if_neg (Bool.eq_false_iff.mp h)]

/-- DECODE32 after the length check (R64). -/
theorem decode32Response_of_long {tx : Inputs} (h : tx.tooShort = false) :
    decode32Response tx =
      if 5 ≤ flagCount tx.windowWord then .error .varIntTooLong
      else .ok (((extract (sel (flagCount tx.windowWord)) tx.windowWord).setWidth 32).setWidth 64) := by
  rw [decode32Response, if_neg (Bool.eq_false_iff.mp h)]

section Decoders
variable {i : Instr} {tx tx' : Inputs} (hi : i = .decode64 ∨ i = .decode32)
include hi

/-- With `LEN < 8` a decoder uses nothing of its inputs. -/
theorem decoder_of_tooShort (h : tx.tooShort = true) :
    responseOf i tx = .error .bufferTooShort := by
  rcases hi with rfl | rfl
  · exact if_pos h
  · exact if_pos h

/-- With `LEN ≥ 8` a decoder's response is a function of the window alone. -/
theorem decoder_eq_of_window (h : tx.tooShort = false) (h' : tx'.tooShort = false)
    (hwindow : tx.window = tx'.window) : responseOf i tx = responseOf i tx' := by
  have hword : tx.windowWord = tx'.windowWord := congrArg leWord hwindow
  rcases hi with rfl | rfl
  · change decode64Response tx = decode64Response tx'
    rw [decode64Response_of_long h, decode64Response_of_long h', hword]
  · change decode32Response tx = decode32Response tx'
    rw [decode32Response_of_long h, decode32Response_of_long h', hword]

/-- With `LEN ≥ 8` no decoder answers `BufferTooShort`. -/
theorem decoder_ne_bufferTooShort (h : tx.tooShort = false) :
    responseOf i tx ≠ .error .bufferTooShort := by
  rcases hi with rfl | rfl
  · rw [responseOf, decode64Response_of_long h]
    split <;> simp
  · rw [responseOf, decode32Response_of_long h]
    split <;> simp

end Decoders

/-- The two decoders' command words (R45). -/
theorem decode_of_decoderWord {cmd : Byte} (h : cmd = 0x02 ∨ cmd = 0x03) :
    ∃ i, decode cmd = .ok i ∧ (i = .decode64 ∨ i = .decode32) := by
  rcases h with rfl | rfl
  · exact ⟨.decode64, rfl, .inl rfl⟩
  · exact ⟨.decode32, rfl, .inr rfl⟩

/-! ### The obligations -/

/-- Settles O28, by the bits of both views. -/
theorem littleEndianBothWays : Obligations.LittleEndianBothWays :=
  ⟨fun b _ _ hi hj => leWord_bit b hi hj, fun w _ hi => bytesOf_byte w hi, leWord_bytesOf,
    bytesOf_leWord⟩

/-- Settles O29: the drive goes on with `bufferInputs`. -/
theorem hostPresentsTheBufferWindow : Obligations.HostPresentsTheBufferWindow := by
  intro s u cmd a b buf fill rest x hs hx
  exact ⟨bufferInputs cmd a b buf fill, step_drive hs hx (inputs_buffer _ cmd a b buf fill),
    rfl, rfl, rfl, presentLen_toNat _, presentBytes_byte buf fill⟩

/-- Settles O30: a decoder looks at `LEN < 8` first, and at nothing but the window after that. -/
theorem decodersUseOnlyTheWindow : Obligations.DecodersUseOnlyTheWindow := by
  intro bs cmd a b a' b' buf buf' fill fill' hcmd
  obtain ⟨i, hdecode, hi⟩ := decode_of_decoderWord hcmd
  refine ⟨_, _, inputs_buffer bs cmd a b buf fill, inputs_buffer bs cmd a' b' buf' fill', ?_⟩
  rw [respondTo_of_decode (tx := bufferInputs cmd a b buf fill) hdecode,
    respondTo_of_decode (tx := bufferInputs cmd a' b' buf' fill') hdecode]
  refine ⟨fun hshort => decoder_of_tooShort hi ?_, fun hlong hlong' htake => ?_⟩
  · simpa [bufferInputs_tooShort] using hshort
  · have h : (bufferInputs cmd a b buf fill).tooShort = false := by
      simpa [bufferInputs_tooShort] using hlong
    have h' : (bufferInputs cmd a' b' buf' fill').tooShort = false := by
      simpa [bufferInputs_tooShort] using hlong'
    exact ⟨decoder_eq_of_window hi h h' (presentBytes_eq_of_take fill fill' hlong hlong' htake),
      decoder_ne_bufferTooShort hi h⟩

end Sys2Proof.Machine
end

section
/-! The statements of spec/30_encoding.md: the command words (R45, R46), the numbers of the selectors and
of the encoder's ladder (R52, R53), and the popcount of a valid encoding (R55). -/

namespace Sys2Proof.Machine

/-! ### Command words -/

/-- An `OP` value selects an operation exactly when it is at most 4 (R45). -/
theorem exists_instrOfOp_iff (op : BitVec 4) : (∃ i, instrOfOp op = .ok i) ↔ op.toNat ≤ 4 := by
  unfold instrOfOp
  generalize op.toNat = n
  match n with
  | 0 | 1 | 2 | 3 | 4 => simp
  | n + 5 => simp

/-- A command word is legal exactly when `RSV = 0` and `OP ≤ 4` (R45). -/
theorem exists_decode_iff (cmd : Byte) :
    (∃ i, decode cmd = .ok i) ↔
      (cmd.extractLsb' 4 4 = 0 ∧ (cmd.extractLsb' 0 4).toNat ≤ 4) := by
  have hdecode : decode cmd = if cmd.extractLsb' 4 4 = 0 then instrOfOp (cmd.extractLsb' 0 4)
      else .error .reservedBits := rfl
  rw [hdecode]
  split
  next hrsv => simp only [hrsv, true_and, exists_instrOfOp_iff]
  next hrsv => simp only [hrsv, false_and, reduceCtorEq, exists_false]

/-- All command words but five are illegal (R45, R46). -/
theorem illegalWords_count :
    ((List.range 256).countP fun n => (decode (BitVec.ofNat 8 n)).toOption.isNone) = 251 := by
  decide +kernel

/-- An illegal command word is answered with `IllegalCommand` (R46). -/
theorem respondTo_of_illegal {tx : Inputs} (h : ¬ ∃ i, decode tx.cmd = .ok i) :
    respondTo tx = .error .illegalCommand := by
  cases hd : decode tx.cmd with
  | ok i => exact absurd ⟨i, hd⟩ h
  | error e => simp [respondTo, hd, illegalResponse]

/-! ### The masks bit by bit -/

/-- The flag pattern 0x80 has bit 7 alone. -/
theorem flagPattern_bit {k : Nat} (hk : k < 8) : (0x80 : Byte).getLsbD k = decide (k = 7) := by
  revert k
  decide

/-- The payload pattern 0x7F has every bit but bit 7. -/
theorem payloadPattern_bit {k : Nat} (hk : k < 8) : (0x7F : Byte).getLsbD k = decide (k ≠ 7) := by
  revert k
  decide

/-- `TF[L]` has bit 7 of the lanes `0..L-2` (R53). -/
theorem tf_bit (l : Nat) {j : Nat} (hj : j < 64) :
    (tf l).getLsbD j = (decide (j / 8 < l - 1) && decide (j % 8 = 7)) := by
  rw [tf, lanes_bit _ _ _ hj, flagPattern_bit (Nat.mod_lt _ (by decide))]

/-- `SEL[k]` has bits 0..6 of the lanes `0..k` (R52). -/
theorem sel_bit (k : Nat) {j : Nat} (hj : j < 64) :
    (sel k).getLsbD j = (decide (j / 8 < k + 1) && decide (j % 8 ≠ 7)) := by
  rw [sel, lanes_bit _ _ _ hj, payloadPattern_bit (Nat.mod_lt _ (by decide))]

/-- `CONTINUATION_MASK` has bit 7 of every lane (R49). -/
theorem continuationMask_bit {j : Nat} (hj : j < 64) :
    continuationMask.getLsbD j = decide (j % 8 = 7) := by
  have hmask : continuationMask = tf 9 := by decide
  have hlane : j / 8 < 9 - 1 := by omega
  simp [hmask, tf_bit 9 hj, hlane]

/-- The flag of lane `i` is bit `8i + 7` of the word (R49). -/
theorem continues_lane (w : Word) (i : Nat) : continues (lane w i) = w.getLsbD (8 * i + 7) := by
  simp [continues, lane]

/-! ### The flags of an encoding -/

/-- The flag bits of a word whose flags are those of length `L` are `TF[L]` (R51, R53). -/
theorem flags_eq_tf {w : Word} {l : Nat} (h : FlagsExactly w l) : w &&& continuationMask = tf l := by
  obtain ⟨-, -, hflags⟩ := h
  apply BitVec.eq_of_getLsbD_eq
  intro j hj
  rw [BitVec.getLsbD_and, continuationMask_bit hj, tf_bit l hj]
  by_cases htop : j % 8 = 7
  · have hbit : w.getLsbD j = decide (j / 8 + 1 < l) := by
      rw [← hflags (j / 8) (by omega), continues_lane, ← htop, Nat.div_add_mod]
    simp [htop, hbit, Nat.lt_sub_iff_add_lt]
  · simp [htop]

/-- `TF[L]` flags every active byte but the last: `L - 1` bits (R55). -/
theorem popcount_tf {l : Nat} (hl : l ≤ 8) : popcount (tf l) = l - 1 := by
  revert l
  decide

/-- The decoder counts `L - 1` flags where they are those of length `L` (R55). -/
theorem flagCount_of_flagsExactly {w : Word} {l : Nat} (h : FlagsExactly w l) :
    flagCount w = l - 1 := by
  rw [flagCount, flags_eq_tf h, popcount_tf h.2.1]

/-- What is deposited under a payload mask has no flag bit: the mask selects none (R55, R69). -/
theorem deposit_pm_flags (l : Nat) (x : Word) : deposit (pm l) x &&& continuationMask = 0 := by
  apply BitVec.eq_of_getLsbD_eq
  intro j hj
  rw [BitVec.getLsbD_and, continuationMask_bit hj, deposit_rank _ _ hj, pm, sel_bit _ hj]
  by_cases htop : j % 8 = 7 <;> simp [htop]

/-! ### The masks as sums -/

/-- A pattern repeated in lanes is the sum of its shifts: no two lanes overlap (R49). -/
theorem lanes_eq_sum (pattern : Byte) (n : Nat) :
    lanes pattern n = ((List.range n).map fun i => pattern.setWidth 64 <<< (8 * i)).sum := by
  induction n with
  | zero => rfl
  | succ n ih =>
    have hdisjoint : lanes pattern n &&& pattern.setWidth 64 <<< (8 * n) = 0#64 := by
      apply BitVec.eq_of_getLsbD_eq
      intro j hj
      rw [BitVec.getLsbD_and, lanes_bit _ _ _ hj, BitVec.getLsbD_shiftLeft]
      by_cases hlane : j / 8 < n
      · simp [show j < 8 * n by omega]
      · simp [hlane]
    rw [lanes, ← BitVec.add_eq_or_of_and_eq_zero _ _ hdisjoint, ih, List.range_succ, List.map_append,
      List.sum_append]
    simp

/-! ### The obligations -/

/-- Settles O4: an illegal word has no operation, and the step answers `respondTo tx`. -/
theorem illegalWordsAnswerIllegalCommand : Obligations.IllegalWordsAnswerIllegalCommand := by
  refine ⟨fun s u rest x tx hs h hillegal => ?_, rfl, illegalWords_count⟩
  have hnone : ¬ ∃ i, decode tx.cmd = .ok i := by
    rw [exists_decode_iff]
    rintro ⟨hrsv, hop⟩
    rcases hillegal with hreserved | hreserved
    · exact absurd hop (Nat.not_le.mpr hreserved)
    · exact hreserved hrsv
  rw [step_perform hs h, respondTo_of_illegal hnone]

/-- Settles O25: the flag bits of a valid encoding are `TF[L]`, and `SEL[L-1]` is `PM[L]`. -/
theorem validEncodingsPredictThePopcount : Obligations.ValidEncodingsPredictThePopcount := by
  intro l _ hl
  refine ⟨fun w ⟨hflags, _⟩ => ?_, popcount_tf hl, deposit_pm_flags l⟩
  have hcount := flagCount_of_flagsExactly hflags
  exact ⟨hcount, by rw [hcount, pm]⟩

/-- Settles O1, by the two fields of the command word. -/
theorem legalCommandsAreTheFiveTableWords : Obligations.LegalCommandsAreTheFiveTableWords :=
  ⟨exists_decode_iff, rfl, rfl, rfl, rfl, rfl⟩

/-- Settles O27: the tables are evaluated, the sums are `lanes_eq_sum`, and 8 flags are the failing case
of DECODE64. -/
theorem selectorAndLadderTables : Obligations.SelectorAndLadderTables := by
  refine ⟨by decide, fun k _ => lanes_eq_sum 0x7F (k + 1), by decide,
    fun l _ _ => ⟨rfl, lanes_eq_sum 0x80 (l - 1)⟩, by decide, fun tx hlen hflags => ?_⟩
  have hlong : tx.tooShort = false := by simpa [Inputs.tooShort] using hlen
  rw [decode64Response_of_long hlong, Inputs.windowWord, if_pos hflags]

end Sys2Proof.Machine
end

section
/-! The statements of spec/40_bitparallel.md: extract and deposit bit by bit (R56), each undoing the other
(R58, R59), and the commands EXTRACT and DEPOSIT with their corner cases (R61, R62). -/

namespace Sys2Proof.Machine

/-! ### Counting the selected positions -/

/-- `rank` is the count of the set bits below a position. -/
theorem rank_eq_countP (v : Word) (n : Nat) :
    rank v n = (List.range n).countP fun j => v.getLsbD j := by
  induction n with
  | zero => rfl
  | succ n ih =>
    rw [rank_succ, ih, List.range_succ, List.countP_append, List.countP_singleton]
    cases v.getLsbD n <;> rfl

/-- A selected position is numbered below the popcount. -/
theorem rank_lt_popcount (v : Word) {i : Nat} (hi : i < 64) (hb : v.getLsbD i = true) :
    rank v i < popcount v :=
  rank_lt v hi hb

/-- Below a position where all bits are alike, all or none are counted. -/
theorem rank_of_alike {v : Word} {n : Nat} {b : Bool} (h : ∀ i, i < n → v.getLsbD i = b) :
    rank v n = n * b.toNat := by
  induction n with
  | zero => simp [rank]
  | succ n ih =>
    rw [rank_succ, ih fun i hi => h i (Nat.lt_succ_of_lt hi), h n (Nat.lt_succ_self n),
      Nat.succ_mul]

/-- `lowmask(n)` has exactly the bits below `n` (R9). -/
theorem lowmask_bit (n : Nat) {k : Nat} (hk : k < 64) :
    (lowmask n).getLsbD k = decide (k < n) := by
  rw [lowmask, BitVec.getLsbD_ofNat, Nat.testBit_two_pow_sub_one, decide_eq_true hk,
    Bool.true_and]

/-! ### The masks of the corner cases -/

theorem allOnes_bit {i : Nat} (hi : i < 64) :
    (0xFFFFFFFFFFFFFFFF : Word).getLsbD i = true := by
  have hmask : (0xFFFFFFFFFFFFFFFF : Word) = BitVec.allOnes 64 := rfl
  rw [hmask, BitVec.getLsbD_allOnes, decide_eq_true hi]

theorem allOnes_rank {i : Nat} (hi : i ≤ 64) : rank 0xFFFFFFFFFFFFFFFF i = i :=
  (rank_of_alike fun _ hj => allOnes_bit (Nat.lt_of_lt_of_le hj hi)).trans (Nat.mul_one i)

theorem topBit_bit (i : Nat) :
    (0x8000000000000000 : Word).getLsbD i = decide (i = 63) := by
  have hmask : (0x8000000000000000 : Word) = BitVec.twoPow 64 63 := rfl
  simp [hmask, BitVec.getLsbD_twoPow, eq_comm]

/-- Nothing is selected below the top bit. -/
theorem topBit_rank {i : Nat} (hi : i < 64) : rank 0x8000000000000000 i = 0 :=
  rank_of_alike (b := false) fun j hj => by rw [topBit_bit, decide_eq_false (by omega)]

theorem popcount_topBit : popcount 0x8000000000000000 = 1 := by
  rw [popcount, rank_succ, topBit_rank (by decide), topBit_bit]
  rfl

/-! ### A word is determined by its bits under the mask -/

section Primitives
variable {mask v v' r : Word}

/-- A word with the selected bits in order and zeros above is the extract. -/
theorem extract_eq_of_bits
    (hselected : ∀ i, i < 64 → mask.getLsbD i = true → v.getLsbD i = r.getLsbD (rank mask i))
    (habove : ∀ k, k < 64 → popcount mask ≤ k → r.getLsbD k = false) : extract mask v = r := by
  apply BitVec.eq_of_getLsbD_eq
  intro k hk
  rcases Nat.lt_or_ge k (popcount mask) with hlow | hhigh
  · obtain ⟨i, hi, hb, rfl⟩ := exists_rank_eq mask hlow
    rw [extract_rank mask v hi hb, hselected i hi hb]
  · rw [extract_above mask v hhigh, habove k hk hhigh]

/-- A word with each selected bit from its number and zeros elsewhere is the deposit. -/
theorem deposit_eq_of_bits
    (h : ∀ i, i < 64 → r.getLsbD i = (mask.getLsbD i && v.getLsbD (rank mask i))) :
    deposit mask v = r := by
  apply BitVec.eq_of_getLsbD_eq
  intro i hi
  rw [deposit_rank mask v hi, h i hi]

/-- The bits of the source outside the mask do not matter (R61). -/
theorem extract_congr (h : v &&& mask = v' &&& mask) : extract mask v = extract mask v' := by
  refine extract_eq_of_bits (fun i hi hb => ?_) (fun k _ hk => extract_above mask v' hk)
  have hbit := congrArg (fun w => BitVec.getLsbD w i) h
  simpa [hb, extract_rank mask v' hi hb] using hbit

/-- The bits of the packed value at the popcount and above do not matter (R62). -/
theorem deposit_congr (h : ∀ k, k < popcount mask → v.getLsbD k = v'.getLsbD k) :
    deposit mask v = deposit mask v' := by
  refine deposit_eq_of_bits fun i hi => ?_
  rw [deposit_rank mask v' hi]
  cases hb : mask.getLsbD i with
  | false => rfl
  | true => rw [h _ (rank_lt_popcount mask hi hb)]

end Primitives

section Laws
variable (mask v : Word)

/-- R58. -/
theorem deposit_extract : deposit mask (extract mask v) = v &&& mask := by
  refine deposit_eq_of_bits fun i hi => ?_
  rw [BitVec.getLsbD_and, Bool.and_comm]
  cases hb : mask.getLsbD i with
  | false => rfl
  | true => rw [extract_rank mask v hi hb]

/-- R59. -/
theorem extract_deposit : extract mask (deposit mask v) = v &&& lowmask (popcount mask) := by
  refine extract_eq_of_bits (fun i hi hb => ?_) (fun k hk64 hk => ?_)
  · have hlow := rank_lt_popcount mask hi hb
    have hlow64 : rank mask i < 64 := Nat.lt_of_le_of_lt (rank_le mask i) hi
    simp [deposit_rank mask v hi, hb, lowmask_bit _ hlow64, hlow]
  · simp [lowmask_bit _ hk64, Nat.not_lt.mpr hk]

/-! ### The corner cases of R61 -/

theorem extract_none : extract 0 v = 0 :=
  extract_eq_of_bits (by simp) (by simp)

theorem extract_all : extract 0xFFFFFFFFFFFFFFFF v = v := by
  refine extract_eq_of_bits (fun i hi _ => ?_) (fun k hk hpop => ?_)
  · rw [allOnes_rank hi.le]
  · rw [popcount, allOnes_rank le_rfl] at hpop
    exact absurd hk (Nat.not_lt.mpr hpop)

theorem extract_topBit : extract 0x8000000000000000 v = if v.getLsbD 63 then 1 else 0 := by
  refine extract_eq_of_bits (fun i hi hb => ?_) (fun k hk hpop => ?_)
  · rw [topBit_bit] at hb
    obtain rfl := of_decide_eq_true hb
    rw [topBit_rank hi]
    cases v.getLsbD 63 <;> rfl
  · rw [popcount_topBit] at hpop
    have hne : k ≠ 0 := Nat.ne_of_gt hpop
    split <;> simp [hne]

theorem extract_self : extract mask mask = lowmask (popcount mask) := by
  refine extract_eq_of_bits (fun i hi hb => ?_) (fun k hk hpop => ?_)
  · rw [hb, lowmask_bit _ (Nat.lt_of_le_of_lt (rank_le mask i) hi),
      decide_eq_true (rank_lt_popcount mask hi hb)]
  · rw [lowmask_bit _ hk, decide_eq_false (Nat.not_lt.mpr hpop)]

theorem extract_lt : (extract mask v).toNat < 2 ^ popcount mask :=
  Nat.lt_pow_two_of_testBit _ fun _ hk => extract_above mask v hk

/-! ### The corner cases of R62 -/

theorem deposit_none : deposit 0 v = 0 :=
  deposit_eq_of_bits (by simp)

theorem deposit_all : deposit 0xFFFFFFFFFFFFFFFF v = v :=
  deposit_eq_of_bits fun i hi => by rw [allOnes_bit hi, allOnes_rank hi.le, Bool.true_and]

theorem deposit_topBit :
    deposit 0x8000000000000000 v = if v.getLsbD 0 then 0x8000000000000000 else 0 := by
  refine deposit_eq_of_bits fun i hi => ?_
  rw [topBit_rank hi]
  cases v.getLsbD 0 <;> simp

/-- What is deposited is a subset of the mask (R62). -/
theorem deposit_and_not_mask : deposit mask v &&& ~~~ mask = 0 := by
  apply BitVec.eq_of_getLsbD_eq
  intro i hi
  rw [BitVec.getLsbD_and, deposit_rank mask v hi, BitVec.getLsbD_not]
  cases mask.getLsbD i <;> simp

end Laws

/-! ### The obligations -/

/-- Settles O5: the count below a position is its `rank`. -/
theorem extractGathersSelectedBitsInOrder : Obligations.ExtractGathersSelectedBitsInOrder := by
  refine fun mask source => ⟨fun i hi hb => ?_, fun k hk => ?_⟩
  · rw [← rank_eq_countP, extract_rank mask source hi hb]
  · rw [← rank_eq_countP] at hk
    exact extract_above mask source hk

/-- Settles O7: a selected position gets back the bit it gave. -/
theorem depositOfExtractIsTheMaskedWord : Obligations.DepositOfExtractIsTheMaskedWord :=
  deposit_extract

/-- Settles O8: each number below the popcount goes to its position and comes back. -/
theorem extractOfDepositIsTheLowBits : Obligations.ExtractOfDepositIsTheLowBits :=
  extract_deposit

/-- Settles O10: `exec` answers `responseOf .extract`, and the corner cases are laws of `extract`. -/
theorem extractCommand : Obligations.ExtractCommand :=
  ⟨rfl, fun _ _ _ h => exec_of_performing .extract h,
    fun b => ⟨extract_none b, extract_all b, extract_topBit b⟩,
    extract_self, extract_lt, fun _ _ _ h => extract_congr h, by decide +kernel⟩

/-- Settles O11: `exec` answers `responseOf .deposit`, and the corner cases are laws of `deposit`. -/
theorem depositCommand : Obligations.DepositCommand :=
  ⟨rfl, fun _ _ _ h => exec_of_performing .deposit h,
    fun b => ⟨deposit_none b, deposit_all b, deposit_topBit b⟩,
    fun _ _ _ h => deposit_congr h, deposit_and_not_mask, by decide +kernel⟩

end Sys2Proof.Machine
end

section
/-! The statements of spec/41_decoder.md on the two decoders: their commands (R63, R64), and the global
count of the continuation flags (R65). -/

namespace Sys2Proof.Machine

/-! ### The count of the flags -/

/-- The flags of a word are its bits 7 of every lane (R49). -/
theorem flags_bit (w : Word) {j : Nat} (hj : j < 64) :
    (w &&& continuationMask).getLsbD j = (w.getLsbD j && decide (j % 8 = 7)) := by
  rw [BitVec.getLsbD_and, continuationMask_bit hj]

/-- The flag bits below lane `n` are one for each flagged lane. -/
theorem rank_flags (w : Word) {n : Nat} (hn : n ≤ 8) :
    rank (w &&& continuationMask) (8 * n)
      = (List.range n).countP fun i => continues (lane w i) := by
  induction n with
  | zero => rfl
  | succ n ih =>
    have hpayload : ∀ j, j ≤ 7 →
        rank (w &&& continuationMask) (8 * n + j) = rank (w &&& continuationMask) (8 * n) := by
      intro j hj
      induction j with
      | zero => rfl
      | succ j ihj =>
        have hclear : j % 8 ≠ 7 := by omega
        rw [← Nat.add_assoc, rank_succ, ihj (Nat.le_of_succ_le hj), flags_bit w (by omega)]
        simp [hclear]
    rw [Nat.mul_succ, rank_succ, hpayload 7 le_rfl, ih (Nat.le_of_succ_le hn),
      flags_bit w (by omega), ← continues_lane, List.range_succ, List.countP_append,
      List.countP_singleton]
    cases continues (lane w n) <;> simp

/-- The decoder's count is the number of flagged lanes (R63, R65). -/
theorem flagCount_eq_countP (w : Word) :
    flagCount w = (List.range 8).countP fun i => continues (lane w i) :=
  rank_flags w (n := 8) le_rfl

theorem flagCount_le (w : Word) : flagCount w ≤ 8 := by
  rw [flagCount_eq_countP]
  exact List.countP_le_length

/-- Where the first `n` lanes are flagged and a later lane is too, more than `n` flags are counted. -/
theorem lt_flagCount {w : Word} {n j : Nat} (hnj : n ≤ j) (hj : j < 8)
    (hfirst : ∀ i, i < n → continues (lane w i) = true) (hlater : continues (lane w j) = true) :
    n < flagCount w := by
  have hbit : (w &&& continuationMask).getLsbD (8 * j + 7) = true := by
    rw [flags_bit w (by omega), ← continues_lane, hlater, Bool.true_and, decide_eq_true_eq]
    omega
  calc n = (List.range n).countP fun i => continues (lane w i) := by
        rw [List.countP_eq_length.mpr (by simpa using hfirst), List.length_range]
    _ = rank (w &&& continuationMask) (8 * n) := (rank_flags w (by omega)).symm
    _ ≤ rank (w &&& continuationMask) (8 * j + 7) := rank_mono _ (by omega)
    _ < flagCount w := rank_lt _ (by omega) hbit

/-! ### What the selector extracts -/

/-- `SEL[k]` selects 7 of the 8 bits of each of the lanes `0..k`, and nothing above them (R52). -/
theorem rank_sel (k : Nat) {n : Nat} (hn : n ≤ 64) :
    rank (sel k) n = min (7 * (n / 8) + n % 8) (7 * (k + 1)) := by
  induction n with
  | zero => simp [rank]
  | succ n ih =>
    rw [rank_succ, ih (Nat.le_of_succ_le hn), sel_bit k hn, ← Bool.decide_and]
    by_cases hselected : n / 8 < k + 1 ∧ n % 8 ≠ 7
    · rw [decide_eq_true hselected, Bool.toNat_true]
      omega
    · rw [decide_eq_false hselected, Bool.toNat_false]
      omega

theorem popcount_sel {k : Nat} (hk : k < 8) : popcount (sel k) = 7 * (k + 1) := by
  rw [popcount, rank_sel k le_rfl]
  omega

/-- A decoded value has 7 bits for each active byte (R63, R64). -/
theorem extract_sel_lt (w : Word) {k : Nat} (hk : k < 8) :
    (extract (sel k) w).toNat < 2 ^ (7 * (k + 1)) := by
  rw [← popcount_sel hk]
  exact extract_lt _ _

/-- Bits `7i+6..7i` of a decoded value are the payload of lane `i` (R50). -/
theorem extract_sel_group (w : Word) {k i : Nat} (hk : k < 8) (hi : i ≤ k) :
    (extract (sel k) w).extractLsb' (7 * i) 7 = payload (lane w i) := by
  apply BitVec.eq_of_getLsbD_eq
  intro j hj
  have hbit : (sel k).getLsbD (8 * i + j) = true := by
    rw [sel_bit k (by omega), Bool.and_eq_true, decide_eq_true_eq, decide_eq_true_eq]
    omega
  have hrank : rank (sel k) (8 * i + j) = 7 * i + j := by
    rw [rank_sel k (by omega)]
    omega
  have hselected := extract_rank (sel k) w (i := 8 * i + j) (by omega) hbit
  rw [hrank] at hselected
  simp [payload, lane, hj, hselected, show j < 8 by omega]

/-- A word whose 7-bit groups are the payloads of the lanes `0..n-1` has their sum in its low bits. -/
theorem mod_eq_laneSum {v w : Word} {n : Nat}
    (h : ∀ i, i < n → v.extractLsb' (7 * i) 7 = payload (lane w i)) :
    v.toNat % 2 ^ (7 * n) = laneSum w n := by
  induction n with
  | zero => simp [laneSum, Nat.mod_one]
  | succ n ih =>
    have hgroup : v.toNat / 2 ^ (7 * n) % 2 ^ 7 = (payload (lane w n)).toNat := by
      rw [← h n (Nat.lt_succ_self n), BitVec.extractLsb'_toNat, Nat.shiftRight_eq_div_pow]
    rw [Nat.mul_succ, Nat.pow_add, Nat.mod_mul, ih fun i hi => h i (Nat.lt_succ_of_lt hi), hgroup,
      laneSum, Nat.mul_comm (2 ^ (7 * n))]

/-- A decoded value is the sum of the payloads of the lanes `0..k` (R50, R63). -/
theorem extract_sel_toNat (w : Word) {k : Nat} (hk : k < 8) :
    (extract (sel k) w).toNat = laneSum w (k + 1) := by
  rw [← mod_eq_laneSum fun i hi => extract_sel_group w hk (Nat.le_of_lt_succ hi),
    Nat.mod_eq_of_lt (extract_sel_lt w hk)]

/-- A selector selects no flag bit (R52). -/
theorem sel_and_not_continuationMask (k : Nat) : ~~~ continuationMask &&& sel k = sel k := by
  apply BitVec.eq_of_getLsbD_eq
  intro j hj
  rw [BitVec.getLsbD_and, BitVec.getLsbD_not, continuationMask_bit hj, sel_bit k hj]
  by_cases htop : j % 8 = 7 <;> simp [htop, hj]

/-- A decoded value depends on the payloads alone: the flags of a word do not reach it (R63). -/
theorem extract_sel_eq_of_payloads {w w' : Word} (k : Nat)
    (h : w &&& ~~~ continuationMask = w' &&& ~~~ continuationMask) :
    extract (sel k) w = extract (sel k) w' := by
  apply extract_congr
  rw [← sel_and_not_continuationMask k, ← BitVec.and_assoc, ← BitVec.and_assoc, h]

/-! ### The responses of the decoders, case by case -/

section Responses
variable {tx tx' : Inputs}

theorem tooShort_of_lt (h : tx.len.toNat < 8) : tx.tooShort = true := decide_eq_true h

theorem tooShort_of_le (h : 8 ≤ tx.len.toNat) : tx.tooShort = false :=
  decide_eq_false (Nat.not_lt.mpr h)

theorem decode64Response_of_eightFlags (hlen : 8 ≤ tx.len.toNat)
    (hp : flagCount tx.windowWord = 8) : decode64Response tx = .error .varIntTooLong := by
  rw [decode64Response_of_long (tooShort_of_le hlen), if_pos hp]

theorem decode64Response_of_fewFlags (hlen : 8 ≤ tx.len.toNat)
    (hp : flagCount tx.windowWord < 8) :
    decode64Response tx = .ok (extract (sel (flagCount tx.windowWord)) tx.windowWord) := by
  rw [decode64Response_of_long (tooShort_of_le hlen), if_neg hp.ne]

theorem decode32Response_of_manyFlags (hlen : 8 ≤ tx.len.toNat)
    (hp : 5 ≤ flagCount tx.windowWord) : decode32Response tx = .error .varIntTooLong := by
  rw [decode32Response_of_long (tooShort_of_le hlen), if_pos hp]

theorem decode32Response_of_fewFlags (hlen : 8 ≤ tx.len.toNat)
    (hp : flagCount tx.windowWord < 5) :
    decode32Response tx =
      .ok (((extract (sel (flagCount tx.windowWord)) tx.windowWord).setWidth 32).setWidth 64) := by
  rw [decode32Response_of_long (tooShort_of_le hlen), if_neg (Nat.not_le.mpr hp)]

/-- A word cut to 32 bits and widened again is its low half (R64). -/
theorem toNat_lowHalf (v : Word) :
    ((v.setWidth 32).setWidth 64).toNat = v.toNat % 2 ^ 32 := by
  rw [BitVec.toNat_setWidth_of_le (by decide), BitVec.toNat_setWidth]

/-- A decoder looks at `LEN`, the number of flags and the payloads, and at nothing else (R65). -/
theorem decoder_eq_of_payloads {i : Instr} (hi : i = .decode64 ∨ i = .decode32)
    (hlen : tx.len = tx'.len) (hcount : flagCount tx.windowWord = flagCount tx'.windowWord)
    (hpayloads : tx.windowWord &&& ~~~ continuationMask = tx'.windowWord &&& ~~~ continuationMask) :
    responseOf i tx = responseOf i tx' := by
  have hshort : tx.tooShort = tx'.tooShort := by rw [Inputs.tooShort, hlen, Inputs.tooShort]
  have hvalue := extract_sel_eq_of_payloads (flagCount tx'.windowWord) hpayloads
  cases h : tx.tooShort with
  | true => rw [decoder_of_tooShort hi h, decoder_of_tooShort hi (hshort ▸ h)]
  | false =>
    have h' : tx'.tooShort = false := hshort ▸ h
    rcases hi with rfl | rfl
    · simp only [responseOf, decode64Response_of_long h, decode64Response_of_long h', hcount, hvalue]
    · simp only [responseOf, decode32Response_of_long h, decode32Response_of_long h', hcount, hvalue]

/-- A decoder answers a window presented with `LEN = 8` as it does with any command word, `A` and `B`. -/
theorem decoder_of_window {i : Instr} (hi : i = .decode64 ∨ i = .decode32) {w : Window}
    (hlen : tx.len = 8) (hw : tx.window = w) : responseOf i tx = responseOf i ⟨0, 0, 0, w, 8⟩ := by
  rcases hi with rfl | rfl <;> exact responseOf_eq_of_agree ⟨hw, hlen⟩

end Responses

/-! ### The obligations -/

/-- Settles O12: `exec` answers `responseOf .decode64`, whose three cases are those of R63, and the value's
bound and what it depends on are laws of the selectors. -/
theorem decodeSixtyFourCommand : Obligations.DecodeSixtyFourCommand := by
  refine ⟨rfl, fun s x tx h => ?_, fun w hp => extract_sel_lt w hp, fun w w' hcount _ hsame => ?_,
    fun tx hlen => ⟨fun hw => ?_, fun hw => ?_⟩⟩
  · rw [exec_of_performing .decode64 h]
    refine ⟨flagCount_le _, fun hlen => ?_, fun hlen hp => ?_, fun hlen hp => ?_⟩
    · rw [decoder_of_tooShort (.inl rfl) (tooShort_of_lt hlen)]
    · rw [responseOf, decode64Response_of_eightFlags hlen hp]
    · rw [responseOf, decode64Response_of_fewFlags hlen hp]
      rfl
  · rw [← hcount]
    exact extract_congr hsame
  · exact (decoder_of_window (.inl rfl) hlen hw).trans (by decide +kernel)
  · exact (decoder_of_window (.inl rfl) hlen hw).trans (by decide +kernel)

/-- Settles O13: `exec` answers `responseOf .decode32`, whose three cases are those of R64. -/
theorem decodeThirtyTwoCommand : Obligations.DecodeThirtyTwoCommand := by
  refine ⟨rfl, fun s x tx h => ?_, fun tx hlen hmany hp => ?_, fun tx hlen hw => ?_⟩
  · rw [exec_of_performing .decode32 h]
    refine ⟨fun hlen => ?_, fun hlen hp => ?_, fun hlen hp => ?_⟩
    · rw [decoder_of_tooShort (.inr rfl) (tooShort_of_lt hlen)]
    · rw [responseOf, decode32Response_of_manyFlags hlen hp]
    · rw [responseOf, decode32Response_of_fewFlags hlen hp]
      exact ⟨extract_sel_lt _ (hp.trans (by decide)), _, toNat_lowHalf _,
        upperHalf_setWidth _, rfl⟩
  · exact ⟨⟨_, decode64Response_of_fewFlags hlen (Nat.lt_succ_of_le hp)⟩,
      decode32Response_of_manyFlags hlen hmany⟩
  · exact (decoder_of_window (.inr rfl) hlen hw).trans (by decide +kernel)

/-- Settles O14: the responses look at the payloads and at the number of flags, and a flag at or after the
true end is one more than the `L - 1` before it. -/
theorem decodersCountFlagsGlobally : Obligations.DecodersCountFlagsGlobally := by
  refine ⟨fun tx tx' hlen hcount hpayloads => ?_, fun w l j _ hlj hj hfirst _ hlater => ?_,
    fun tx hlen hw => ?_⟩
  · exact ⟨decoder_eq_of_payloads (.inl rfl) hlen hcount hpayloads,
      decoder_eq_of_payloads (.inr rfl) hlen hcount hpayloads⟩
  · exact ⟨lt_flagCount (Nat.le_trans (Nat.sub_le l 1) hlj) hj hfirst hlater, extract_sel_toNat w⟩
  · exact (decoder_of_window (.inl rfl) hlen hw).trans (by decide +kernel)

end Sys2Proof.Machine
end

section
/-! The statements of spec/42_encoder.md on the encoded word: its payload and its flags stay apart (R69),
its bytes past the length are zero (R70), and DECODE64 reads the value back (R72). -/

namespace Sys2Proof.Machine

/-! ### The masks lane by lane -/

/-- A repeated pattern stands in each of its lanes and in no other (R49). -/
theorem lane_lanes (pattern : Byte) (n : Nat) {i : Nat} (hi : i < 8) :
    lane (lanes pattern n) i = if i < n then pattern else 0 := by
  apply BitVec.eq_of_getLsbD_eq
  intro j hj
  have hlane : (8 * i + j) / 8 = i := by omega
  have hbit : (8 * i + j) % 8 = j := by omega
  rw [lane, BitVec.getLsbD_extractLsb', lanes_bit pattern n _ (by omega), hlane, hbit]
  by_cases hactive : i < n <;> simp [hactive, hj]

/-- `TF[L]` holds the flag in every active lane but the last (R53). -/
theorem lane_tf (l : Nat) {i : Nat} (hi : i < 8) : lane (tf l) i = if i < l - 1 then 0x80 else 0 :=
  lane_lanes 0x80 (l - 1) hi

/-- `PM[L]` holds the payload mask in every active lane (R53). -/
theorem lane_pm {l i : Nat} (hl : 1 ≤ l) (hi : i < 8) :
    lane (pm l) i = if i < l then 0x7F else 0 := by
  rw [pm, sel, Nat.sub_add_cancel hl, lane_lanes _ _ hi]

theorem popcount_pm {l : Nat} (hl : 1 ≤ l) (hl8 : l ≤ 8) : popcount (pm l) = 7 * l := by
  rw [pm, popcount_sel (by omega), Nat.sub_add_cancel hl]

/-- `TF[L]` has flag bits only (R53). -/
theorem tf_and_continuationMask (l : Nat) : tf l &&& continuationMask = tf l := by
  apply BitVec.eq_of_getLsbD_eq
  intro j hj
  rw [flags_bit _ hj, tf_bit l hj, Bool.and_assoc, Bool.and_self]

/-- `TF[L]` has no payload bit (R53). -/
theorem tf_and_not_continuationMask (l : Nat) : tf l &&& ~~~ continuationMask = 0 := by
  rw [← tf_and_continuationMask, BitVec.and_assoc, BitVec.and_not_self]
  exact BitVec.and_zero

/-! ### The deposit keeps the value -/

/-- What is deposited lies under the mask (R62). -/
theorem deposit_and_mask (mask v : Word) : deposit mask v &&& mask = deposit mask v := by
  apply BitVec.eq_of_getLsbD_eq
  intro i hi
  rw [BitVec.getLsbD_and, deposit_rank mask v hi]
  cases mask.getLsbD i <;> simp

/-- A value below `2^n` has no bit outside `lowmask(n)` (R9). -/
theorem and_lowmask_of_lt {x : Word} {n : Nat} (hx : x.toNat < 2 ^ n) : x &&& lowmask n = x := by
  apply BitVec.eq_of_getLsbD_eq
  intro k hk
  rw [BitVec.getLsbD_and, lowmask_bit n hk]
  rcases Nat.lt_or_ge k n with hlow | hhigh
  · rw [decide_eq_true hlow, Bool.and_true]
  · have hclear : x.getLsbD k = false :=
      Nat.testBit_lt_two_pow (Nat.lt_of_lt_of_le hx (Nat.pow_le_pow_right (by decide) hhigh))
    rw [hclear, Bool.false_and]

/-- The deposit of a value of at most `7L` bits keeps every bit (R69). -/
theorem extract_deposit_pm {l : Nat} {x : Word} (hl : 1 ≤ l) (hl8 : l ≤ 8)
    (hx : x.toNat < 2 ^ (7 * l)) : extract (pm l) (deposit (pm l) x) = x := by
  rw [extract_deposit, popcount_pm hl hl8, and_lowmask_of_lt hx]

/-- Each row of the ladder holds values of at most 7 bits for each byte of its length, 1 to 8 (R53). -/
theorem ladder_bounds {row : LadderRow} (h : row ∈ ladder) :
    1 ≤ row.length ∧ row.length ≤ 8 ∧ row.hi < 2 ^ (7 * row.length) := by
  revert row
  decide

/-! ### The encoded word -/

section EncodedWord
variable {x : Word} (hx : x.toNat ≤ 0xFFFFFFFFFFFFFF)

/-- The flags of the encoded word are those of `TF`: the deposit sets none (R69). -/
theorem encodedWord_flags (x : Word) : encodedWord x &&& continuationMask = tf (lenc x) := by
  rw [encodedWord, BitVec.and_or_distrib_right, deposit_pm_flags, tf_and_continuationMask]
  exact BitVec.zero_or

/-- The payloads of the encoded word are those of the deposit: `TF` sets flags only (R69). -/
theorem encodedWord_payloads (x : Word) :
    encodedWord x &&& ~~~ continuationMask
      = deposit (pm (lenc x)) x &&& ~~~ continuationMask := by
  rw [encodedWord, BitVec.and_or_distrib_right, tf_and_not_continuationMask]
  exact BitVec.or_zero

include hx

/-- The decoder counts one flag fewer than the encoded length (R55). -/
theorem flagCount_encodedWord : flagCount (encodedWord x) = lenc x - 1 := by
  obtain ⟨-, hl8, -, -⟩ := lenc_range hx
  rw [flagCount, encodedWord_flags, popcount_tf hl8]

/-- The decoder's selector for the encoded word extracts the value (R72). -/
theorem extract_encodedWord : extract (sel (flagCount (encodedWord x))) (encodedWord x) = x := by
  obtain ⟨hl, hl8, hbits, -⟩ := lenc_range hx
  calc extract (sel (flagCount (encodedWord x))) (encodedWord x)
      = extract (pm (lenc x)) (encodedWord x) := by rw [flagCount_encodedWord hx, pm]
    _ = extract (pm (lenc x)) (deposit (pm (lenc x)) x) :=
        extract_sel_eq_of_payloads _ (encodedWord_payloads x)
    _ = x := extract_deposit_pm hl hl8 hbits

/-- The lanes of the encoded word past its length are zero (R70). -/
theorem lane_encodedWord_of_le {i : Nat} (hi : i < 8) (hli : lenc x ≤ i) :
    lane (encodedWord x) i = 0 := by
  obtain ⟨hl, -, -, -⟩ := lenc_range hx
  have hpm : lane (pm (lenc x)) i = 0 := by rw [lane_pm hl hi, if_neg (by omega)]
  have htf : lane (tf (lenc x)) i = 0 := by rw [lane_tf _ hi, if_neg (by omega)]
  rw [lane] at hpm htf ⊢
  rw [encodedWord, ← deposit_and_mask, BitVec.extractLsb'_or, BitVec.extractLsb'_and, hpm, htf]
  simp

end EncodedWord

/-! ### The response of ENCODE, case by case -/

/-- ENCODE of a value of at most 56 bits (R68). -/
theorem encodeResponse_of_le {tx : Inputs} (h : tx.a.toNat ≤ 0xFFFFFFFFFFFFFF) :
    encodeResponse tx = .ok (encodedWord tx.a) :=
  if_neg (Nat.not_lt.mpr h)

/-- ENCODE of a value above the limit (R77). -/
theorem encodeResponse_of_lt {tx : Inputs} (h : 0xFFFFFFFFFFFFFF < tx.a.toNat) :
    encodeResponse tx = .error .valueTooLarge :=
  if_pos h

/-- When ENCODE answers a word, the value is within the limit and the word is its encoding (R68). -/
theorem encodeResponse_ok {tx : Inputs} {word : Word} (h : encodeResponse tx = .ok word) :
    tx.a.toNat ≤ 0xFFFFFFFFFFFFFF ∧ word = encodedWord tx.a := by
  rcases Nat.lt_or_ge 0xFFFFFFFFFFFFFF tx.a.toNat with hlarge | hle
  · rw [encodeResponse_of_lt hlarge] at h
    cases h
  · rw [encodeResponse_of_le hle] at h
    exact ⟨hle, (Response.ok.inj h).symm⟩

/-- DECODE64 answers the value whose encoded bytes its window holds (R72). -/
theorem decode64Response_of_encodedWord {tx : Inputs} {x : Word} (hx : x.toNat ≤ 0xFFFFFFFFFFFFFF)
    (hwindow : tx.window = bytesOf (encodedWord x)) (hlen : tx.len = 8) :
    decode64Response tx = .ok x := by
  have hlong : 8 ≤ tx.len.toNat := by rw [hlen]; decide
  have hword : tx.windowWord = encodedWord x := by rw [Inputs.windowWord, hwindow, leWord_bytesOf]
  have hfew : flagCount tx.windowWord < 8 := by
    obtain ⟨hl, hl8, -, -⟩ := lenc_range hx
    rw [hword, flagCount_encodedWord hx]
    omega
  rw [decode64Response_of_fewFlags hlong hfew, hword, extract_encodedWord hx]

/-! ### The obligations -/

/-- Settles O23: ENCODE answers `encodedWord`, whose flags lead DECODE64 to the selector that undoes the
deposit. -/
theorem encodeThenDecodeRoundTrips : Obligations.EncodeThenDecodeRoundTrips := by
  intro s x tx h ha
  refine ⟨encodedWord tx.a, ?_, fun s' x' tx' h' hwindow hlen => ?_⟩
  · rw [exec_of_performing .encode h, responseOf, encodeResponse_of_le ha]
  · rw [exec_of_performing .decode64 h', responseOf,
      decode64Response_of_encodedWord ha hwindow hlen]

/-- Settles O21: neither `PM[L]` nor `TF[L]` reaches a lane from `L` on. -/
theorem encodeTrailingBytesAreZero : Obligations.EncodeTrailingBytesAreZero := by
  intro tx word i hi h hli
  obtain ⟨ha, rfl⟩ := encodeResponse_ok h
  rw [bytesOf_byte _ hi]
  exact lane_encodedWord_of_le ha hi hli

/-- Settles O22: `PM[L]` has no flag bit and 7 bits for each byte of the length, and `TF[L]` is read lane by
lane. -/
theorem depositKeepsTheValueAndSetsNoFlag : Obligations.DepositKeepsTheValueAndSetsNoFlag := by
  refine ⟨fun l x _ _ => deposit_pm_flags l x, fun row x hrow _ hhi => ?_,
    fun l i _ _ hi => lane_tf l hi⟩
  obtain ⟨hl, hl8, hbound⟩ := ladder_bounds hrow
  have hx : x.toNat < 2 ^ (7 * row.length) := Nat.lt_of_le_of_lt hhi hbound
  exact ⟨hx, popcount_pm hl hl8, extract_deposit_pm hl hl8 hx⟩

end Sys2Proof.Machine
end

section
/-! The statements of spec/60_exceptions.md on the errors: exactly when each is answered (R75 to R77), that
the decoders' and the encoder's are kept apart (R79), their priority (R81), and that an error leaves nothing
behind (R84). -/

namespace Sys2Proof.Machine

/-! ### The response an instruction answers -/

/-- An instruction ends its transaction with a response exactly when that is its response to the sampled
inputs. -/
theorem exec_answers_iff (i : Instr) {s : State} {x : UnitInstance} {tx : Inputs}
    (h : Performing s x tx) (r : Response) :
    exec i s = .next (s.setUnit s.turn (x.answered r)) ↔ responseOf i tx = r := by
  rw [exec_of_performing i h]
  refine ⟨fun heq => ?_, fun heq => by rw [heq]⟩
  have hunit : (s.setUnit s.turn (x.answered (responseOf i tx))).units[s.turn]?
      = (s.setUnit s.turn (x.answered r)).units[s.turn]? :=
    congrArg (fun t : State => t.units[s.turn]?) (Host.Outcome.next.inj heq)
  rw [setUnit_get_self h.1, setUnit_get_self h.1] at hunit
  exact Option.some.inj (congrArg UnitInstance.response (Option.some.inj hunit))

/-- Whatever state it goes on from, an instruction leaves its unit with its response to some inputs. -/
theorem exec_next_response {i : Instr} {s t : State} {y : UnitInstance} (h : exec i s = .next t)
    (hy : t.units[s.turn]? = some y) : ∃ tx, y.response = some (responseOf i tx) := by
  rw [exec_eq_answer] at h
  obtain ⟨x, tx, hx, rfl⟩ := answer_next h
  rw [setUnit_get_self hx.1] at hy
  obtain rfl := Option.some.inj hy
  exact ⟨tx, answered_response _ _⟩

/-! ### When each error is answered -/

/-- The numbers of flags for which a decoder answers `VarIntTooLong` (R76). -/
def TooManyFlags : Instr → Nat → Prop
  | .decode64, p => p = 8
  | .decode32, p => 5 ≤ p
  | _, _ => False

section Decoders
variable {i : Instr} (hi : i = .decode64 ∨ i = .decode32) (tx : Inputs)
include hi

/-- The three responses of a decoder: by `LEN` first, then by the number of flags (R63, R64, R81). -/
theorem decoder_cases :
    (tx.len.toNat < 8 ∧ responseOf i tx = .error .bufferTooShort) ∨
    (8 ≤ tx.len.toNat ∧ TooManyFlags i (flagCount tx.windowWord) ∧
      responseOf i tx = .error .varIntTooLong) ∨
    (8 ≤ tx.len.toNat ∧ ¬ TooManyFlags i (flagCount tx.windowWord) ∧
      ∃ v, responseOf i tx = .ok v) := by
  rcases Nat.lt_or_ge tx.len.toNat 8 with hshort | hlong
  · exact .inl ⟨hshort, decoder_of_tooShort hi (tooShort_of_lt hshort)⟩
  rcases hi with rfl | rfl
  · rcases (flagCount_le tx.windowWord).eq_or_lt with hp | hp
    · exact .inr (.inl ⟨hlong, hp, decode64Response_of_eightFlags hlong hp⟩)
    · exact .inr (.inr ⟨hlong, hp.ne, _, decode64Response_of_fewFlags hlong hp⟩)
  · rcases Nat.lt_or_ge (flagCount tx.windowWord) 5 with hp | hp
    · exact .inr (.inr ⟨hlong, Nat.not_le.mpr hp, _, decode32Response_of_fewFlags hlong hp⟩)
    · exact .inr (.inl ⟨hlong, hp, decode32Response_of_manyFlags hlong hp⟩)

/-- A decoder's `BufferTooShort` is about `LEN` alone (R75). -/
theorem decoder_eq_bufferTooShort_iff :
    responseOf i tx = .error .bufferTooShort ↔ tx.len.toNat < 8 := by
  obtain ⟨hshort, hr⟩ | ⟨hlong, -, hr⟩ | ⟨hlong, -, v, hr⟩ := decoder_cases hi tx
  · simp [hr, hshort]
  · simp [hr, hlong]
  · simp [hr, hlong]

/-- A decoder's `VarIntTooLong` is about a window that is long enough and its flags (R76). -/
theorem decoder_eq_varIntTooLong_iff :
    responseOf i tx = .error .varIntTooLong ↔
      8 ≤ tx.len.toNat ∧ TooManyFlags i (flagCount tx.windowWord) := by
  obtain ⟨hshort, hr⟩ | ⟨hlong, hmany, hr⟩ | ⟨hlong, hfew, v, hr⟩ := decoder_cases hi tx
  · simp [hr, hshort]
  · simp [hr, hlong, hmany]
  · simp [hr, hfew]

theorem decoder_ne_valueTooLarge : responseOf i tx ≠ .error .valueTooLarge := by
  obtain ⟨-, hr⟩ | ⟨-, -, hr⟩ | ⟨-, -, v, hr⟩ := decoder_cases hi tx <;> simp [hr]

end Decoders

/-- The two responses of ENCODE, by the value (R68, R77). -/
theorem encode_cases (tx : Inputs) :
    (tx.a.toNat ≤ 0xFFFFFFFFFFFFFF ∧ ∃ word, responseOf .encode tx = .ok word) ∨
    (0xFFFFFFFFFFFFFF < tx.a.toNat ∧ responseOf .encode tx = .error .valueTooLarge) := by
  rcases Nat.lt_or_ge 0xFFFFFFFFFFFFFF tx.a.toNat with hlarge | hle
  · exact .inr ⟨hlarge, encodeResponse_of_lt hlarge⟩
  · exact .inl ⟨hle, _, encodeResponse_of_le hle⟩

/-- ENCODE's `ValueTooLarge` is about `A` alone (R77). -/
theorem encode_eq_valueTooLarge_iff (tx : Inputs) :
    responseOf .encode tx = .error .valueTooLarge ↔ 0xFFFFFFFFFFFFFF < tx.a.toNat := by
  obtain ⟨hle, word, hr⟩ | ⟨hlarge, hr⟩ := encode_cases tx
  · simp [hr, hle]
  · simp [hr, hlarge]

/-- The command words above 4 are illegal (R45, R46). -/
theorem illegal_of_four_lt {cmd : Byte} (h : 4 < cmd.toNat) : ¬ ∃ i, decode cmd = .ok i := by
  rw [exists_decode_iff]
  rintro ⟨hrsv, hop⟩
  have hhigh : (cmd.extractLsb' 4 4).toNat = 0 := congrArg BitVec.toNat hrsv
  simp only [BitVec.extractLsb'_toNat, Nat.shiftRight_eq_div_pow] at hhigh hop
  have := cmd.isLt
  omega

/-! ### The transaction after a response -/

/-- An idle unit issued and performed ends the same whatever its outputs held before (R84). -/
theorem run_issuePerform_of_response {s : State} {u : Nat} {rest : List Event} {x : UnitInstance}
    (hs : s.script = .issue u :: .perform u :: rest) (hx : s.units[u]? = some x)
    (ho : x.outstanding = none) (response : Option Response) :
    core.run 2 (s.setUnit u { x with response := response })
      = .next ({ s with script := rest, turn := u }.setUnit u
          (x.answered (respondTo x.ports))) := by
  have hget := setUnit_get_self (x := { x with response := response }) hx
  refine run_of_step (step_issue hs hget ho) (run_of_step (k := 0)
    (step_perform rfl ⟨setUnit_get_self hget, issued_outstanding _⟩)
    (congrArg Host.Outcome.next ?_))
  simp only [State.setUnit, List.set_set]
  rfl

/-! ### The obligations -/

/-- Settles O20: ENCODE's response is `ValueTooLarge` exactly above the limit. -/
theorem valueTooLargeExactlyAboveTheLimit : Obligations.ValueTooLargeExactlyAboveTheLimit :=
  ⟨fun _ _ tx h => (exec_answers_iff .encode h _).trans (encode_eq_valueTooLarge_iff tx), rfl, rfl⟩

/-- Settles O31: a decoder's response is `BufferTooShort` exactly for `LEN < 8`. -/
theorem bufferTooShortExactlyBelowEight : Obligations.BufferTooShortExactlyBelowEight :=
  ⟨fun i _ _ tx hi h => (exec_answers_iff i h _).trans (decoder_eq_bufferTooShort_iff hi tx),
    presentLen_lt_eight, rfl, rfl⟩

/-- Settles O32: a decoder's response is `VarIntTooLong` exactly for `LEN ≥ 8` and too many flags. -/
theorem varIntTooLongExactlyAboveTheCounts : Obligations.VarIntTooLongExactlyAboveTheCounts :=
  ⟨fun _ _ tx h =>
    ⟨(exec_answers_iff .decode64 h _).trans (decoder_eq_varIntTooLong_iff (.inl rfl) tx),
      (exec_answers_iff .decode32 h _).trans (decoder_eq_varIntTooLong_iff (.inr rfl) tx)⟩,
    rfl, rfl⟩

/-- Settles O33: the unit holds `responseOf` of the instruction, whose cases are listed once for the
decoders and once for ENCODE. -/
theorem decodeAndEncodeErrorsAreApart : Obligations.DecodeAndEncodeErrorsAreApart := by
  intro i s t y h hy
  obtain ⟨tx, hresponse⟩ := exec_next_response h hy
  simp only [hresponse, ne_eq, Option.some.injEq]
  refine ⟨fun hi => decoder_ne_valueTooLarge hi tx, ?_, ?_⟩
  · rintro rfl
    obtain ⟨-, word, hr⟩ | ⟨-, hr⟩ := encode_cases tx <;> simp [hr]
  · rintro (rfl | rfl)
    · exact ⟨_, rfl⟩
    · exact ⟨_, rfl⟩

/-- Settles O34: the step answers `respondTo tx`, which decodes the word first, and a decoder then looks at
`LEN` before the flags. -/
theorem errorPriority : Obligations.ErrorPriority := by
  intro s u rest x tx hs h
  simp only [step_perform hs h]
  refine ⟨fun hcmd => ?_, fun hcmd hshort => ?_, fun hcmd hlong hmany => ?_,
    fun hcmd hlong hmany => ?_, fun hcmd hlarge => ?_⟩
  · rw [respondTo_of_illegal (illegal_of_four_lt hcmd)]
  · obtain ⟨i, hdecode, hi⟩ := decode_of_decoderWord hcmd
    rw [respondTo_of_decode hdecode, (decoder_eq_bufferTooShort_iff hi tx).mpr hshort]
  · rw [respondTo_of_decode (i := .decode64) (by rw [hcmd]; rfl),
      (decoder_eq_varIntTooLong_iff (.inl rfl) tx).mpr ⟨hlong, hmany⟩]
  · rw [respondTo_of_decode (i := .decode32) (by rw [hcmd]; rfl),
      (decoder_eq_varIntTooLong_iff (.inr rfl) tx).mpr ⟨hlong, hmany⟩]
  · rw [respondTo_of_decode (i := .encode) (by rw [hcmd]; rfl),
      (encode_eq_valueTooLarge_iff tx).mpr hlarge]

/-- Settles O45: the issue and the perform do not look at the response before them. -/
theorem nextTransactionAfterAnErrorIsTheSame : Obligations.NextTransactionAfterAnErrorIsTheSame := by
  intro s u rest x k v hs hx ho
  exact ⟨_, run_issuePerform_of_response hs hx ho (some (.error k)),
    run_issuePerform_of_response hs hx ho (some (.ok v)), setUnit_get_self hx⟩

end Sys2Proof.Machine
end

section
/-! The statements of spec/70_reset_and_hazards.md on reset: it drops what is outstanding, and the instance
takes the next transaction (R92, R93). -/

namespace Sys2Proof.Machine

/-! ### Resetting an instance and issuing to it -/

/-- The step in which a unit is reset, busy or idle. -/
theorem step_reset {s : State} {u : Nat} {rest : List Event} {x : UnitInstance}
    (hs : s.script = .reset u :: rest) (hx : s.units[u]? = some x) :
    step s = .next ({ s with script := rest }.setUnit u x.wasReset) := by
  rw [step_cons hs, runEvent, resetUnit, withUnit_of_get (s := { s with script := rest }) hx]

/-- An idle unit driven and issued has the driven inputs outstanding. -/
theorem run_driveIssue {s : State} {u : Nat} {tx : Inputs} {rest : List Event} {x : UnitInstance}
    (hs : s.script = .drive u tx.presented :: .issue u :: rest) (hx : s.units[u]? = some x)
    (ho : x.outstanding = none) :
    core.run 2 s = .next ({ s with script := rest }.setUnit u (x.driven tx).issued) := by
  refine run_of_step (step_drive hs hx (presented_inputs tx _)) (run_of_step (k := 0)
    (step_issue rfl (setUnit_get_self hx) ho) (congrArg Host.Outcome.next ?_))
  simp only [State.setUnit, List.set_set]
  rfl

/-! ### The obligation -/

/-- Settles O56: reset leaves the unit idle whatever it was before, and from an idle unit the drive, the
issue and the perform run as they always do. -/
theorem resetDropsTheTransactionAndTheNextIsAccepted :
    Obligations.ResetDropsTheTransactionAndTheNextIsAccepted := by
  intro s u rest x tx hs hx
  have hreset := step_reset hs hx
  have hget := setUnit_get_self
    (s := { s with script := .drive u tx.presented :: .issue u :: .perform u :: rest })
    (x := x.wasReset) hx
  have hissued := run_driveIssue rfl hget (wasReset_outstanding x)
  have hperformed := run_driveIssuePerform rfl hget (wasReset_outstanding x)
  exact ⟨_, _, _, x.wasReset, (x.wasReset.driven tx).issued, .done tx, hreset,
    run_of_step hreset hissued, run_of_step hreset hperformed, hget, setUnit_get_self hget,
    setUnit_get_self hget, wasReset_outstanding x, wasReset_response x, rfl, done_response tx,
    fun _ hv => ⟨setUnit_get_other hv, (setUnit_get_other hv).trans (setUnit_get_other hv)⟩, rfl, rfl⟩

end Sys2Proof.Machine
end

section
/-! The statements on every step: the invariant holds at reset and every step keeps it (spec/00_scope.md R7),
what an event and an instruction leave as they were (spec/60_exceptions.md section 5), and exactly which
events go on. -/

namespace Sys2Proof.Machine

/-! ### What an event does where it goes on -/

/-- The next states of the events, the event itself already taken off the script: one constructor for each
thing an event can do. `runEvent_next_iff` ties it to the model. -/
inductive EventStep (s : State) : Event → State → Prop
  | drive {u : Nat} {p : Presentation} {x : UnitInstance} {tx : Inputs} (hx : s.units[u]? = some x)
      (hp : p.inputs s.bindings = .ok tx) : EventStep s (.drive u p) (s.setUnit u (x.driven tx))
  | issue {u : Nat} {x : UnitInstance} (hx : s.units[u]? = some x) (ho : x.outstanding = none) :
      EventStep s (.issue u) (s.setUnit u x.issued)
  | perform {u : Nat} {x : UnitInstance} {tx : Inputs} (h : Outstanding s u x tx) :
      EventStep s (.perform u) ({ s with turn := u }.setUnit u (x.answered (respondTo tx)))
  | idle {u : Nat} {x : UnitInstance} (hx : s.units[u]? = some x) (ho : x.outstanding = none) :
      EventStep s (.perform u) s
  | receive {u name : Nat} {x : UnitInstance} {r : Response} (hx : s.units[u]? = some x)
      (hr : x.response = some r) : EventStep s (.receive u name) (s.bind name r)
  | reset {u : Nat} {x : UnitInstance} (hx : s.units[u]? = some x) :
      EventStep s (.reset u) (s.setUnit u x.wasReset)

/-- An event answers a next state exactly where `EventStep` says so. -/
theorem runEvent_next_iff {s t : State} {e : Event} : runEvent e s = .next t ↔ EventStep s e t := by
  constructor
  · intro h
    cases e with
    | drive u p =>
      obtain ⟨x, tx, hx, hp, rfl⟩ := driveUnit_next h
      exact .drive hx hp
    | issue u =>
      obtain ⟨x, hx, ho, rfl⟩ := issueUnit_next h
      exact .issue hx ho
    | perform u =>
      obtain ⟨x, hx, ⟨ho, rfl⟩ | ⟨tx, ho, rfl⟩⟩ := performUnit_next h
      · exact .idle hx ho
      · exact .perform ⟨hx, ho⟩
    | receive u name =>
      obtain ⟨x, r, hx, hr, rfl⟩ := receiveUnit_next h
      exact .receive hx hr
    | reset u =>
      obtain ⟨x, hx, rfl⟩ := resetUnit_next h
      exact .reset hx
  · intro h
    cases h with
    | drive hx hp => simp only [runEvent, driveUnit, withUnit_of_get hx, hp]
    | issue hx ho => simp only [runEvent, issueUnit, withUnit_of_get hx, ho]
    | perform h => exact performUnit_of_outstanding h
    | idle hx ho => exact performUnit_of_idle hx ho
    | receive hx hr => simp only [runEvent, receiveUnit, withUnit_of_get hx, hr]
    | reset hx => exact withUnit_of_get hx

/-- A step on an event goes on exactly where the event does. -/
theorem step_next_iff {s t : State} {e : Event} {rest : List Event} (hs : s.script = e :: rest) :
    step s = .next t ↔ EventStep { s with script := rest } e t := by
  rw [step_cons hs, runEvent_next_iff]

/-! ### What an event leaves as it was -/

/-- Writing an instance that `f` does not tell from the one before leaves what `f` reads of all. -/
theorem map_setUnit {α : Type} {f : UnitInstance → α} {s : State} {u : Nat} {x y : UnitInstance}
    (hx : s.units[u]? = some x) (hf : f y = f x) : (s.setUnit u y).units.map f = s.units.map f := by
  obtain ⟨hu, rfl⟩ := List.getElem?_eq_some_iff.mp hx
  have hu' : u < (s.units.map f).length := by simpa using hu
  rw [setUnit_units, List.map_set, hf, ← List.getElem_map f (h := hu'), List.set_getElem_self]

namespace EventStep
variable {s t : State} {e : Event}

/-- An event puts nothing on the script. -/
theorem script_eq (h : EventStep s e t) : t.script = s.script := by
  cases h <;> rfl

theorem length_eq (h : EventStep s e t) : t.units.length = s.units.length := by
  cases h <;> simp

/-- An event leaves every instance but its own. -/
theorem other_unit (h : EventStep s e t) {v : Nat} (hv : v ≠ e.unit) :
    t.units[v]? = s.units[v]? := by
  cases h with
  | drive | issue | perform | reset => exact setUnit_get_other hv
  | idle | receive => rfl

/-- Only receiving binds a name. -/
theorem bindings_eq (h : EventStep s e t) (he : ∀ u name, e ≠ .receive u name) :
    t.bindings = s.bindings := by
  cases h with
  | drive | issue | perform | idle | reset => rfl
  | receive => exact absurd rfl (he _ _)

/-- Receiving changes no instance. -/
theorem units_of_receive {u name : Nat} (h : EventStep s (.receive u name) t) : t.units = s.units := by
  cases h
  rfl

/-- Only driving moves the ports (log 18, and log 15 for reset). -/
theorem ports_eq (h : EventStep s e t) (he : ∀ u p, e ≠ .drive u p) :
    t.units.map UnitInstance.ports = s.units.map UnitInstance.ports := by
  cases h with
  | drive => exact absurd rfl (he _ _)
  | issue hx _ => exact map_setUnit hx rfl
  | perform h => exact map_setUnit (s := { s with turn := _ }) h.1 rfl
  | reset hx => exact map_setUnit hx rfl
  | idle | receive => rfl

/-- Only performing moves the turn. -/
theorem turn_eq (h : EventStep s e t) (he : ∀ u, e ≠ .perform u) : t.turn = s.turn := by
  cases h with
  | drive | issue | receive | reset => rfl
  | perform | idle => exact absurd rfl (he _)

end EventStep

/-! ### The invariant -/

/-- The invariant looks at no event to come. -/
theorem inv_withScript {s : State} (h : s.Inv) (script : List Event) :
    { s with script := script }.Inv :=
  ⟨h.unitCount, h.turnInRange, h.busySilent, h.namesDistinct⟩

/-- The turn may go to any instance there is. -/
theorem inv_withTurn {s : State} (h : s.Inv) {u : Nat} (hu : u < s.units.length) :
    { s with turn := u }.Inv :=
  ⟨h.unitCount, hu, h.busySilent, h.namesDistinct⟩

/-- An instance may be replaced by any that shows no response while it is busy. -/
theorem inv_setUnit {s : State} (h : s.Inv) (u : Nat) {y : UnitInstance}
    (hy : y.outstanding.isSome = true → y.response = none) : (s.setUnit u y).Inv where
  unitCount := by simp [h.unitCount]
  turnInRange := by simpa using h.turnInRange
  busySilent z hz := (List.mem_or_eq_of_mem_set hz).elim (h.busySilent z) fun heq => heq ▸ hy
  namesDistinct := h.namesDistinct

theorem inv_bind {s : State} (h : s.Inv) (name : Nat) (r : Response) : (s.bind name r).Inv :=
  ⟨h.unitCount, h.turnInRange, h.busySilent, bind_names_nodup name r h.namesDistinct⟩

/-- Every event that goes on keeps the invariant. -/
theorem EventStep.keeps_inv {s t : State} {e : Event} (hstep : EventStep s e t) (h : s.Inv) :
    t.Inv := by
  cases hstep with
  | @drive _ _ x _ hx _ => exact inv_setUnit h _ (h.busySilent x (List.mem_of_getElem? hx))
  | issue => exact inv_setUnit h _ fun _ => issued_response _
  | perform hx =>
    have hu := (List.getElem?_eq_some_iff.mp hx.1).1
    exact inv_setUnit (inv_withTurn h hu) _ (by simp)
  | idle => exact h
  | receive => exact inv_bind h _ _
  | reset => exact inv_setUnit h _ fun _ => wasReset_response _

/-- With no event left, a step changes nothing or is the move of some instance. -/
theorem step_nil_next {s t : State} (hs : s.script = []) (h : step s = .next t) :
    t = s ∨ ∃ u, EventStep s (.perform u) t := by
  rw [step_nil hs] at h
  obtain ⟨-, heq⟩ | ⟨u, -, hperform⟩ := drain_next h
  · exact .inl heq
  · exact .inr ⟨u, runEvent_next_iff.mp hperform⟩

/-- Right after reset every instance is in its own reset state. -/
theorem eq_reset_of_mem {x : UnitInstance} (h : x ∈ State.reset.units) : x = UnitInstance.reset := by
  rcases List.mem_cons.mp h with rfl | h
  · rfl
  · exact List.eq_of_mem_replicate h

/-! ### The admissible events -/

/-- A name may be read exactly where it has a result. -/
theorem readable_iff (bs : List (Nat × Response)) (name : Nat) :
    readable bs name = true ↔ ∃ v, resultOf bs name = .ok v := by
  unfold readable resultOf
  rcases bs.lookup name with _ | _ | _ <;> simp

/-- Whether the name of a word source may be read. -/
def WordSource.readable (bs : List (Nat × Response)) : WordSource → Bool
  | .value _ => true
  | .res name => Machine.readable bs name

/-- Whether the name of a window source may be read. -/
def WindowSource.readable (bs : List (Nat × Response)) : WindowSource → Bool
  | .bytes _ _ => true
  | .out name _ => Machine.readable bs name
  | .buffer _ _ => true

/-- A presentation may be read where each of its three sources may. -/
theorem presentation_readable (bs : List (Nat × Response)) (p : Presentation) :
    p.readable bs = (p.a.readable bs && p.b.readable bs && p.window.readable bs) := rfl

theorem wordReadable_iff (bs : List (Nat × Response)) (src : WordSource) :
    src.readable bs = true ↔ ∃ v, src.read bs = .ok v := by
  cases src with
  | value v => simp [WordSource.readable, WordSource.read]
  | res name => exact readable_iff bs name

theorem windowReadable_iff (bs : List (Nat × Response)) (src : WindowSource) :
    src.readable bs = true ↔ ∃ wn, src.read bs = .ok wn := by
  cases src with
  | bytes w n => simp [WindowSource.readable, WindowSource.read]
  | out name n =>
    rw [WindowSource.readable, readable_iff, WindowSource.read]
    cases resultOf bs name <;> simp
  | buffer buf fill => simp [WindowSource.readable, WindowSource.read]

/-- The host can present port values exactly where it reads only results that are there (R97). -/
theorem presentationReadable_iff (bs : List (Nat × Response)) (p : Presentation) :
    p.readable bs = true ↔ ∃ tx, p.inputs bs = .ok tx := by
  rw [presentation_readable, Bool.and_eq_true, Bool.and_eq_true, wordReadable_iff, wordReadable_iff,
    windowReadable_iff, Presentation.inputs]
  cases p.a.read bs with
  | error f => simp
  | ok a =>
    cases p.b.read bs with
    | error f => simp
    | ok b => cases p.window.read bs <;> simp

/-- The host's events, and the instances' moves, that go on are the admissible ones. -/
theorem admissible_iff (s : State) (e : Event) : e.admissible s = true ↔ ∃ t, EventStep s e t := by
  unfold Event.admissible
  constructor
  · intro h
    cases hx : s.units[e.unit]? with
    | none => simp [hx] at h
    | some x =>
      simp only [hx] at h
      cases e with
      | drive u p =>
        obtain ⟨tx, hp⟩ := (presentationReadable_iff _ p).mp h
        exact ⟨_, .drive hx hp⟩
      | issue u => exact ⟨_, .issue hx (Option.isNone_iff_eq_none.mp h)⟩
      | perform u =>
        cases ho : x.outstanding with
        | none => exact ⟨_, .idle hx ho⟩
        | some tx => exact ⟨_, .perform ⟨hx, ho⟩⟩
      | receive u name =>
        obtain ⟨r, hr⟩ := Option.isSome_iff_exists.mp h
        exact ⟨_, .receive hx hr⟩
      | reset u => exact ⟨_, .reset hx⟩
  · rintro ⟨t, hstep⟩
    cases hstep with
    | drive hx hp => simpa [Event.unit, hx] using (presentationReadable_iff _ _).mpr ⟨_, hp⟩
    | issue hx ho => simp [Event.unit, hx, ho]
    | perform h => simp [Event.unit, h.1]
    | idle hx => simp [Event.unit, hx]
    | receive hx hr => simp [Event.unit, hx, hr]
    | reset hx => simp [Event.unit, hx]

/-! ### The obligations -/

/-- Settles O52: a step is an event that goes on, or it changes nothing. -/
theorem everyStepKeepsTheInvariant : Obligations.EveryStepKeepsTheInvariant := by
  intro s t hinv h
  cases hs : s.script with
  | cons e rest => exact ((step_next_iff hs).mp h).keeps_inv (inv_withScript hinv rest)
  | nil =>
    obtain rfl | ⟨u, hmove⟩ := step_nil_next hs h
    · exact hinv
    · exact hmove.keeps_inv hinv

/-- Settles O51: all instances of the reset state are idle, and nothing is bound. -/
theorem resetMeetsTheInvariant : Obligations.ResetMeetsTheInvariant where
  unitCount := by simp [State.reset, Config.nUnits]
  turnInRange := by simp [State.reset]
  busySilent x hx _ := by rw [eq_reset_of_mem hx]; rfl
  namesDistinct := List.nodup_nil

/-- Settles O53: the admissible events are those `EventStep` has a next state for. -/
theorem admissibleEventsAreThoseThatGoOn : Obligations.AdmissibleEventsAreThoseThatGoOn := by
  intro s e rest hs
  simp only [step_next_iff hs, ← admissible_iff]
  rfl

/-- Settles O43, clause by clause from what an event leaves as it was. -/
theorem eventFrame : Obligations.EventFrame := by
  intro s t e rest hs h
  have hstep := (step_next_iff hs).mp h
  refine ⟨hstep.script_eq, hstep.length_eq, fun _ => hstep.other_unit, hstep.bindings_eq, ?_,
    hstep.ports_eq, hstep.turn_eq⟩
  rintro ⟨u, name, rfl⟩
  exact hstep.units_of_receive

/-- Settles O42: an instruction goes on only by ending the transaction of the instance whose turn it
is. -/
theorem instructionFrame : Obligations.InstructionFrame := by
  intro i s t h
  rw [exec_eq_answer] at h
  obtain ⟨x, tx, hx, rfl⟩ := answer_next h
  exact ⟨rfl, rfl, rfl, List.length_set, fun _ hv => setUnit_get_other hv,
    x, tx, responseOf i tx, hx, setUnit_get_self hx.1⟩

end Sys2Proof.Machine
end

section
/-! The statements of spec/40_bitparallel.md section 1 on deposit bit by bit (R57), and on the two builds
of the primitives (R60): the model's portable fallback computes what the loops of R56 and R57 do. -/

namespace Sys2Proof.Machine

/-! ### One bit at a time -/

/-- Assigning a bit that is still clear is setting it or leaving it. -/
theorem assignBit_of_clear {r : Word} {i : Nat} (b : Bool) (h : r.getLsbD i = false) :
    assignBit r i b = r ||| if b then BitVec.twoPow 64 i else 0 := by
  have hkeep : r &&& ~~~ BitVec.twoPow 64 i = r := by
    apply BitVec.eq_of_getLsbD_eq
    intro j hj
    by_cases hji : i = j
    · subst hji
      simp [h]
    · simp [hj, Ne.symm hji]
  rw [assignBit, hkeep]

/-- The lowest bit of a word, moved to position `i`. -/
theorem lowBit_shiftLeft (w : Word) (i : Nat) :
    (w &&& 1) <<< i = if w.getLsbD 0 then BitVec.twoPow 64 i else 0 := by
  have hlow : w &&& 1 = (BitVec.ofBool (w.getLsbD 0)).setWidth 64 :=
    BitVec.and_one_eq_setWidth_ofBool_getLsbD
  rw [hlow]
  cases w.getLsbD 0
  · simp
  · exact (BitVec.twoPow_eq 64 i).symm

/-- Bit `n` of a word, moved to position `k`. -/
theorem oneBit_moved (w : Word) {n : Nat} (hn : n < 64) (k : Nat) :
    ((w &&& BitVec.twoPow 64 n) >>> n) <<< k = if w.getLsbD n then BitVec.twoPow 64 k else 0 := by
  have hone : (w &&& BitVec.twoPow 64 n) >>> n = (w >>> n) &&& 1 := by
    rw [BitVec.ushiftRight_and_distrib]
    congr 1
    apply BitVec.eq_of_getLsbD_eq
    intro j hj
    simp [hn]
  rw [hone, lowBit_shiftLeft]
  simp

/-! ### The fallbacks follow the loops -/

/-- At a selected position the extract loop puts the source's bit above what it has gathered (R56). -/
theorem extractLoop_succ_of_selected {mask source : Word} {n : Nat} (hn : n < 64)
    (hm : mask.getLsbD n = true) :
    (extractLoop mask source (n + 1)).1 = (extractLoop mask source n).1 |||
      if source.getLsbD n then BitVec.twoPow 64 (rank mask n) else 0 := by
  have hclear := (extractLoop_bits mask source hn.le).2 _ (Nat.le_refl (rank mask n))
  rw [extractLoop, extractStep, if_pos hm, extractLoop_count, assignBit_of_clear _ hclear]

/-- The extract fallback leaves what it shifted in before above what the loop gathers from the positions
left. -/
theorem extractFallback_eq (mask source : Word) {n : Nat} (hn : n ≤ 64) (r : Word) :
    extractFallback mask source n r = r <<< rank mask n ||| (extractLoop mask source n).1 := by
  induction n generalizing r with
  | zero => simp [extractFallback, extractLoop, rank]
  | succ n ih =>
    have hn64 : n < 64 := hn
    rw [extractFallback, ih hn64.le, rank_succ]
    cases hm : mask.getLsbD n with
    | false => simp [extractLoop, extractStep, hm]
    | true =>
      rw [extractLoop_succ_of_selected hn64 hm, if_pos rfl, BitVec.shiftLeft_or_distrib,
        oneBit_moved source hn64, Bool.toNat_true, Nat.add_comm (rank mask n) 1,
        BitVec.shiftLeft_add, BitVec.or_assoc, BitVec.or_comm (extractLoop mask source n).1]

/-- At a selected position the deposit loop puts the next packed bit there (R57). -/
theorem depositLoop_succ_of_selected {mask packed : Word} {n : Nat} (hn : n < 64)
    (hm : mask.getLsbD n = true) :
    (depositLoop mask packed (n + 1)).1 = (depositLoop mask packed n).1 |||
      if packed.getLsbD (rank mask n) then BitVec.twoPow 64 n else 0 := by
  have hclear : (depositLoop mask packed n).1.getLsbD n = false := by
    simp [depositLoop_bits mask packed hn.le]
  rw [depositLoop, depositStep, if_pos hm, depositLoop_count, assignBit_of_clear _ hclear]

/-- With `n` positions left, the deposit fallback goes on from what is left of the packed value and what is
deposited so far, and ends as the loop does. -/
theorem depositFallback_eq (mask packed : Word) {n : Nat} (hn : n ≤ 64) :
    depositFallback mask n (packed >>> rank mask (64 - n)) (depositLoop mask packed (64 - n)).1
      = deposit mask packed := by
  induction n with
  | zero => rfl
  | succ n ih =>
    have hnext : 64 - n = 63 - n + 1 := by omega
    have hhere : 64 - (n + 1) = 63 - n := by omega
    rw [← ih (Nat.le_of_succ_le hn), hnext, hhere, depositFallback, rank_succ]
    cases hm : mask.getLsbD (63 - n) with
    | false => simp [depositLoop, depositStep, hm]
    | true =>
      rw [depositLoop_succ_of_selected (by omega) hm, if_pos rfl, lowBit_shiftLeft,
        BitVec.getLsbD_ushiftRight, Nat.add_zero, Bool.toNat_true, BitVec.shiftRight_add]

/-! ### The obligations -/

/-- Settles O6: the number of a position is the count of the selected positions below it. -/
theorem depositScattersLowBitsInOrder : Obligations.DepositScattersLowBitsInOrder := by
  intro mask packed i hi
  rw [deposit_rank mask packed hi, rank_eq_countP]

/-- Settles O9: each fallback, started as the unit would start it, ends as its loop. -/
theorem portableFallbackComputesTheSameFunctions :
    Obligations.PortableFallbackComputesTheSameFunctions := by
  intro mask v
  constructor
  · simp [extractFallback_eq mask v le_rfl, extract]
  · simpa [rank, depositLoop] using depositFallback_eq mask v le_rfl

end Sys2Proof.Machine
end

section
/-! The statements on what the codec means: a decoded value is the sum of its payloads and the narrow one
its low half (spec/41_decoder.md), the encoded length and the encoded bytes (spec/42_encoder.md), and a
standard LEB128 reader agrees (R67, R73). -/

namespace Sys2Proof.Machine

/-! ### The standard reader -/

/-- A standard reader reads the payloads of the bytes up to the first whose flag is clear (R67). -/
theorem standardRead_eq_ofDigits {bs : List Byte} {n : Nat} (hn : n < bs.length)
    (hset : ∀ i (h : i < n), continues bs[i] = true) (hclear : continues bs[n] = false) :
    standardRead bs = some (Nat.ofDigits (2 ^ 7) ((bs.take (n + 1)).map fun b => (payload b).toNat)) := by
  induction bs generalizing n with
  | nil => exact absurd hn (Nat.not_lt_zero n)
  | cons b bs ih =>
    cases n with
    | zero =>
      have hb : continues b = false := hclear
      simp [standardRead, hb]
    | succ n =>
      have hb : continues b = true := hset 0 (Nat.succ_pos n)
      have hrest := ih (Nat.lt_of_succ_lt_succ hn) (fun i h => hset (i + 1) (Nat.succ_lt_succ h)) hclear
      simp [standardRead, hb, hrest, Nat.ofDigits_cons]

/-- The bytes of a word are its lanes (R32). -/
theorem bytesOf_toList (w : Word) : (bytesOf w).toList = (List.range 8).map (lane w) := rfl

/-- The sum of the payloads, written with base-128 digits (R50). -/
theorem laneSum_eq_ofDigits (w : Word) (n : Nat) :
    laneSum w n = Nat.ofDigits (2 ^ 7) ((List.range n).map fun i => (payload (lane w i)).toNat) := by
  induction n with
  | zero => rfl
  | succ n ih =>
    rw [laneSum, ih, List.range_succ, List.map_append, Nat.ofDigits_append, List.length_map,
      List.length_range, List.map_singleton, Nat.ofDigits_singleton, ← Nat.pow_mul, Nat.mul_comm]

/-- A standard reader reads a word with the flags of length `L` as DECODE64 does (R67). -/
theorem standardRead_of_flagsExactly {w : Word} {l : Nat} (h : FlagsExactly w l) :
    standardRead (bytesOf w).toList = some (extract (sel (flagCount w)) w).toNat := by
  have hcount := flagCount_of_flagsExactly h
  obtain ⟨hl, hl8, hflags⟩ := h
  have hn : l - 1 < 8 := by omega
  have hread := standardRead_eq_ofDigits (bs := (List.range 8).map (lane w)) (n := l - 1)
    (by simpa using hn) (fun i hi => ?_) ?_
  · rw [bytesOf_toList, hread, hcount, extract_sel_toNat w hn, laneSum_eq_ofDigits, ← List.map_take,
      List.take_range, Nat.min_eq_left hn, List.map_map]
    rfl
  · simpa using (hflags i (by omega)).trans (decide_eq_true (by omega))
  · simpa using (hflags (l - 1) hn).trans (decide_eq_false (by omega))

/-! ### The encoded length -/

/-- The ranges of two lengths do not meet. -/
theorem length_unique {x l l' : Nat} (hx : x < 2 ^ (7 * l)) (hx' : x < 2 ^ (7 * l'))
    (hlow : l = 1 ∨ 2 ^ (7 * (l - 1)) ≤ x) (hlow' : l' = 1 ∨ 2 ^ (7 * (l' - 1)) ≤ x)
    (hl : 1 ≤ l) (hl' : 1 ≤ l') : l = l' := by
  have hle : ∀ {m k : Nat}, x < 2 ^ (7 * k) → (m = 1 ∨ 2 ^ (7 * (m - 1)) ≤ x) → 1 ≤ k → m ≤ k := by
    intro m k hk hm hk1
    rcases hm with rfl | hm
    · exact hk1
    · have := (Nat.pow_lt_pow_iff_right Nat.one_lt_two).mp (Nat.lt_of_le_of_lt hm hk)
      omega
  exact Nat.le_antisymm (hle hx' hlow hl') (hle hx hlow' hl)

/-- A value of `L` groups, `L` at most 8, is within the limit. -/
theorem le_limit_of_lt {x l : Nat} (hl8 : l ≤ 8) (hx : x < 2 ^ (7 * l)) : x ≤ 0xFFFFFFFFFFFFFF := by
  have hlimit : 2 ^ (7 * l) ≤ 2 ^ 56 := Nat.pow_le_pow_right (by decide) (Nat.mul_le_mul_left 7 hl8)
  omega

/-- The encoded length is the one whose range holds the value (R54). -/
theorem lenc_eq {x : Word} {l : Nat} (hl : 1 ≤ l) (hl8 : l ≤ 8) (hx : x.toNat < 2 ^ (7 * l))
    (hlow : l = 1 ∨ 2 ^ (7 * (l - 1)) ≤ x.toNat) : lenc x = l := by
  obtain ⟨h1, -, hbits, hlow'⟩ := lenc_range (le_limit_of_lt hl8 hx)
  exact length_unique hbits hx hlow' hlow h1 hl

/-- The length steps from `k` to `k + 1` at `2^(7k)` (R53, R68). -/
theorem lenc_at_boundary {k : Nat} (hk : 1 ≤ k) (hk7 : k ≤ 7) :
    lenc (BitVec.ofNat 64 (2 ^ (7 * k) - 1)) = k ∧ lenc (BitVec.ofNat 64 (2 ^ (7 * k))) = k + 1 := by
  have hpos : 0 < 2 ^ (7 * k) := Nat.two_pow_pos _
  have hword : 2 ^ (7 * k) < 2 ^ 64 := Nat.pow_lt_pow_right (by decide) (by omega)
  have hlower : 2 ^ (7 * (k - 1)) < 2 ^ (7 * k) := Nat.pow_lt_pow_right (by decide) (by omega)
  have hupper : 2 ^ (7 * k) < 2 ^ (7 * (k + 1)) := Nat.pow_lt_pow_right (by decide) (by omega)
  have hbelow : (BitVec.ofNat 64 (2 ^ (7 * k) - 1)).toNat = 2 ^ (7 * k) - 1 := by
    rw [BitVec.toNat_ofNat, Nat.mod_eq_of_lt (by omega)]
  have hat : (BitVec.ofNat 64 (2 ^ (7 * k))).toNat = 2 ^ (7 * k) := by
    rw [BitVec.toNat_ofNat, Nat.mod_eq_of_lt hword]
  exact ⟨lenc_eq hk (by omega) (by omega) (.inr (by omega)),
    lenc_eq (by omega) (by omega) (by omega) (.inr (by rw [hat, Nat.add_sub_cancel]))⟩

/-- Each row's range is that of its length (R53). -/
theorem ladder_range {row : LadderRow} (h : row ∈ ladder) :
    row.length = 1 ∨ 2 ^ (7 * (row.length - 1)) = row.lo := by
  revert row
  decide

/-- A row that holds a value has its length. -/
theorem length_eq_lenc {row : LadderRow} {x : Word} (hrow : row ∈ ladder) (hlo : row.lo ≤ x.toNat)
    (hhi : x.toNat ≤ row.hi) : row.length = lenc x := by
  obtain ⟨hl, hl8, hbound⟩ := ladder_bounds hrow
  have hlow : row.length = 1 ∨ 2 ^ (7 * (row.length - 1)) ≤ x.toNat :=
    (ladder_range hrow).imp_right fun hrange => hrange.le.trans hlo
  exact (lenc_eq hl hl8 (Nat.lt_of_le_of_lt hhi hbound) hlow).symm

/-- Every value within the limit lies in a row. -/
theorem exists_row {x : Word} (hx : x.toNat ≤ 0xFFFFFFFFFFFFFF) :
    ∃ row ∈ ladder, row.lo ≤ x.toNat ∧ x.toNat ≤ row.hi := by
  obtain ⟨row, hrow⟩ := Option.isSome_iff_exists.mp ((ladder_covers x).mpr hx)
  have hholds := List.find?_some hrow
  rw [LadderRow.holds, Bool.and_eq_true, decide_eq_true_eq, decide_eq_true_eq] at hholds
  exact ⟨row, List.mem_of_find?_eq_some hrow, hholds⟩

/-- The encoded length is the bit length over 7, rounded up, and 1 for 0 (R54). -/
theorem lenc_closed_form {x : Word} (hx : x.toNat ≤ 0xFFFFFFFFFFFFFF) :
    lenc x = if x = 0 then 1 else (1 + Nat.log2 x.toNat + 6) / 7 := by
  split
  next h0 => subst h0; exact lenc_eq le_rfl (by decide) (by decide) (.inl rfl)
  next h0 =>
    obtain ⟨hl, -, hbits, hlow⟩ := lenc_range hx
    have hne : x.toNat ≠ 0 := fun h => h0 (BitVec.eq_of_toNat_eq h)
    have hlog := (Nat.log2_lt hne).mpr hbits
    have hlog' : lenc x = 1 ∨ 7 * (lenc x - 1) ≤ Nat.log2 x.toNat :=
      hlow.imp_right (Nat.le_log2 hne).mpr
    omega

/-! ### The encoded word -/

section EncodedWord
variable {x : Word} (hx : x.toNat ≤ 0xFFFFFFFFFFFFFF)

/-- The flag of each lane of an encoded word is that of `TF` (R69). -/
theorem continues_encodedWord (x : Word) {i : Nat} (hi : i < 8) :
    continues (lane (encodedWord x) i) = decide (i + 1 < lenc x) := by
  have hflag := flags_bit (encodedWord x) (j := 8 * i + 7) (by omega)
  rw [encodedWord_flags, tf_bit _ (by omega)] at hflag
  have htop : (8 * i + 7) % 8 = 7 := by omega
  have hlane : (8 * i + 7) / 8 = i := by omega
  simpa [htop, hlane, continues_lane, Nat.lt_sub_iff_add_lt] using hflag.symm

include hx

/-- An encoded word is a valid encoding of its length (R51, R73). -/
theorem validEncoding_encodedWord : ValidEncoding (encodedWord x) (lenc x) := by
  obtain ⟨hl, hl8, -, -⟩ := lenc_range hx
  exact ⟨⟨hl, hl8, fun _ hi => continues_encodedWord x hi⟩,
    fun _ hi hli => lane_encodedWord_of_le hx hi hli⟩

/-- The payload of lane `i` of an encoded word is group `i` of the value (R68). -/
theorem payload_encodedWord {i : Nat} (hi : i < lenc x) :
    payload (lane (encodedWord x) i) = x.extractLsb' (7 * i) 7 := by
  obtain ⟨hl, hl8, -, -⟩ := lenc_range hx
  have hcount := flagCount_encodedWord hx
  have hvalue := extract_encodedWord hx
  rw [← extract_sel_group (k := flagCount (encodedWord x)) _ (by omega) (by omega), hvalue]

end EncodedWord

/-- A byte is its payload and its flag (R49). -/
theorem byte_toNat (b : Byte) :
    b.toNat = (payload b).toNat + if continues b then 0x80 else 0 := by
  revert b
  decide

/-! ### The obligations -/

/-- Settles O15: DECODE64 answers what the selector extracts, whose 7-bit groups are the payloads. -/
theorem decodedValueIsTheSumOfPayloads : Obligations.DecodedValueIsTheSumOfPayloads := by
  intro s x tx h hlen hp
  refine ⟨_, (exec_answers_iff .decode64 h _).mpr (decode64Response_of_fewFlags hlen hp),
    extract_sel_toNat _ hp, ?_, fun i hi => extract_sel_group _ hp hi⟩
  exact le_limit_of_lt (Nat.succ_le_of_lt hp) (extract_sel_lt _ hp)

/-- Settles O16: both decoders extract the same word, and DECODE32 cuts it to 32 bits. -/
theorem narrowDecodeIsTheLowHalf : Obligations.NarrowDecodeIsTheLowHalf := by
  intro s x tx h hlen
  refine ⟨fun hp => ?_, fun hp =>
    (exec_answers_iff .decode32 h _).mpr (decode32Response_of_manyFlags hlen hp)⟩
  have hp5 := Nat.lt_succ_of_le hp
  have hp8 := Nat.lt_of_lt_of_le hp5 (show 5 ≤ 8 by decide)
  refine ⟨_, _, (exec_answers_iff .decode64 h _).mpr (decode64Response_of_fewFlags hlen hp8),
    (exec_answers_iff .decode32 h _).mpr (decode32Response_of_fewFlags hlen hp5), ?_,
    toNat_lowHalf _⟩
  exact Nat.lt_of_lt_of_le (extract_sel_lt _ hp8)
    (Nat.pow_le_pow_right (by decide) (Nat.mul_le_mul_left 7 hp5))

/-- Settles O17: the reader stops after `L` bytes, and DECODE64 counts `L - 1` flags. -/
theorem standardReaderAgreesWithDecode : Obligations.StandardReaderAgreesWithDecode := by
  intro s x tx l h hlen hflags
  have hfew : flagCount (leWord tx.window) < 8 := by
    have hl8 := hflags.2.1
    rw [flagCount_of_flagsExactly hflags]
    omega
  have hread := standardRead_of_flagsExactly hflags
  rw [bytesOf_leWord] at hread
  exact ⟨_, (exec_answers_iff .decode64 h _).mpr (decode64Response_of_fewFlags hlen hfew), hread⟩

/-- Settles O18: ENCODE's two cases, its examples evaluated, and the steps of the length. -/
theorem encodeCommand : Obligations.EncodeCommand := by
  refine ⟨rfl, fun s x tx h => ⟨fun hlarge => ?_, fun hle => ?_⟩, fun tx ha => ?_, fun tx ha => ?_,
    fun tx ha => ?_, fun k hk hk7 => lenc_at_boundary hk hk7⟩
  · exact (exec_answers_iff .encode h _).mpr (encodeResponse_of_lt hlarge)
  · exact (exec_answers_iff .encode h _).mpr (encodeResponse_of_le hle)
  · rw [encodeResponse_of_le (by rw [ha]; decide), ha]
    decide +kernel
  · rw [encodeResponse_of_le (by rw [ha]; decide), ha]
    decide +kernel
  · rw [encodeResponse_of_le (by rw [ha]; decide), ha]
    decide +kernel

/-- Settles O19: byte `i` is a lane of the encoded word, the payload being group `i` of the value and the
flag that of `TF`. -/
theorem encodedBytesAreSevenBitGroups : Obligations.EncodedBytesAreSevenBitGroups := by
  intro s x tx l h hl hl8 hbits hlow
  have hle := le_limit_of_lt hl8 hbits
  obtain rfl := lenc_eq hl hl8 hbits hlow
  refine ⟨encodedWord tx.a, (exec_answers_iff .encode h _).mpr (encodeResponse_of_le hle),
    fun i hi => ?_⟩
  have hbyte : (bytesOf (encodedWord tx.a))[i] = lane (encodedWord tx.a) i := bytesOf_byte _ hi
  rw [hbyte]
  split
  next hactive =>
    simp only [byte_toNat (lane _ _), payload_encodedWord hle hactive, continues_encodedWord _ hi,
      BitVec.extractLsb'_toNat, Nat.shiftRight_eq_div_pow, decide_eq_true_eq, Nat.lt_sub_iff_add_lt]
  next hpast => rw [lane_encodedWord_of_le hle hi (Nat.le_of_not_lt hpast)]; rfl

/-- Settles O24: the encoded word has the flags of its length, and what a reader reads is what DECODE64
extracts. -/
theorem encodeResultsAreValidEncodings : Obligations.EncodeResultsAreValidEncodings := by
  intro tx word h
  obtain ⟨hle, rfl⟩ := encodeResponse_ok h
  have hvalid := validEncoding_encodedWord hle
  refine ⟨hvalid, ?_, ?_⟩
  · rw [flagCount_encodedWord hle, Nat.add_sub_cancel' hvalid.1.1]
  · rw [standardRead_of_flagsExactly hvalid.1, extract_encodedWord hle]

/-- Settles O26: each row holds the values of its length. -/
theorem lengthClassesTileTheValues : Obligations.LengthClassesTileTheValues := by
  intro x hx
  obtain ⟨row, hrow, hlo, hhi⟩ := exists_row hx
  exact ⟨⟨row, hrow, hlo, hhi, length_eq_lenc hrow hlo hhi⟩,
    fun _ hrow hlo hhi => length_eq_lenc hrow hlo hhi, lenc_closed_form hx⟩

end Sys2Proof.Machine
end

section
/-! The statements on the command words (R44, R45), the status codes (R19), and on the host at the ports: what
a read gives or how it faults (R48, R97), issuing, and the step that performs a decoded command. -/

namespace Sys2Proof.Machine

/-! ### Command words -/

/-- The fields of a command word determine it (R44). -/
theorem toByte_ofByte (cmd : Byte) : (Command.ofByte cmd).toByte = cmd := by
  revert cmd
  decide

/-- The well-formedness and the fields of every encoded word. -/
theorem encoding_statement (i : Instr) : Laws.Encoding.Statement i := by
  cases i with
  | extract => exact Laws.Encoding.extract
  | deposit => exact Laws.Encoding.deposit
  | decode64 => exact Laws.Encoding.decode64
  | decode32 => exact Laws.Encoding.decode32
  | encode => exact Laws.Encoding.encode

/-- An `OP` value selects an operation exactly when it is that operation's (R45). -/
theorem instrOfOp_eq_ok_iff (op : BitVec 4) (i : Instr) : instrOfOp op = .ok i ↔ op = i.op := by
  revert op
  cases i <;> decide

/-- A command word selects an operation exactly when it has the operation's fields (R45, R46). -/
theorem decode_eq_ok_iff (cmd : Byte) (i : Instr) :
    decode cmd = .ok i ↔ Command.ofByte cmd = i.command := by
  unfold decode
  generalize Command.ofByte cmd = c
  obtain ⟨op, rsv⟩ := c
  by_cases hrsv : rsv = 0#4
  · simp [hrsv, Instr.command, instrOfOp_eq_ok_iff]
  · simp [hrsv, Instr.command]

/-! ### Performing a decoded command -/

/-- An instance with a legal command outstanding runs it. -/
theorem performUnit_eq_exec {s : State} {u : Nat} {x : UnitInstance} {tx : Inputs} {i : Instr}
    (h : Outstanding s u x tx) (hi : decode tx.cmd = .ok i) :
    performUnit u s = exec i { s with turn := u } := by
  rw [performUnit, withUnit_of_get h.1]
  simp only [h.2, hi]
  rfl

/-- A busy instance behind idle ones is the first busy one. -/
theorem firstBusy_eq {s : State} {u : Nat} {x : UnitInstance} {tx : Inputs} (h : Outstanding s u x tx)
    (hbefore : ∀ v y, v < u → s.units[v]? = some y → y.outstanding = none) :
    firstBusy s.units = some u := by
  obtain ⟨hu, hx⟩ := List.getElem?_eq_some_iff.mp h.1
  refine List.findIdx?_eq_some_iff_getElem.mpr ⟨hu, by simp [hx, h.2], fun v hv => ?_⟩
  simp [hbefore v _ hv (List.getElem?_eq_getElem (hv.trans hu))]

/-! ### What the host presents, and how it faults -/

section Presenting
variable {bs : List (Nat × Response)} {cmd : Byte} {a b : WordSource} {w : WindowSource}
  {va vb : Word} {f : Fault}

/-- The host presents the values its three sources give, `LEN` cut to 15 (R48). -/
theorem inputs_of_gives {bytes : Window} {n : Nat} (ha : WordGives bs a va) (hb : WordGives bs b vb)
    (hw : WindowGives bs w bytes n) :
    (⟨cmd, a, b, w⟩ : Presentation).inputs bs
      = .ok ⟨cmd, va, vb, bytes, BitVec.ofNat 4 (min n 15)⟩ := by
  simp only [Presentation.inputs, wordRead_of_gives ha, wordRead_of_gives hb, windowRead_of_gives hw]
  rfl

/-- `A` is looked at first (log 10). -/
theorem inputs_of_missing_a (ha : WordMissing bs a f) :
    (⟨cmd, a, b, w⟩ : Presentation).inputs bs = .error f := by
  simp only [Presentation.inputs, wordRead_of_missing ha]

/-- `B` is looked at after `A` (log 10). -/
theorem inputs_of_missing_b (ha : WordGives bs a va) (hb : WordMissing bs b f) :
    (⟨cmd, a, b, w⟩ : Presentation).inputs bs = .error f := by
  simp only [Presentation.inputs, wordRead_of_gives ha, wordRead_of_missing hb]

/-- The window is looked at last (log 10). -/
theorem inputs_of_missing_window (ha : WordGives bs a va) (hb : WordGives bs b vb)
    (hw : WindowMissing bs w f) : (⟨cmd, a, b, w⟩ : Presentation).inputs bs = .error f := by
  simp only [Presentation.inputs, wordRead_of_gives ha, wordRead_of_gives hb,
    windowRead_of_missing hw]

end Presenting

section HostSteps
variable {s : State} {u : Nat} {rest : List Event} {x : UnitInstance}

/-- A drive that cannot be presented faults as its presentation does. -/
theorem step_drive_fault {p : Presentation} {f : Fault} (hs : s.script = .drive u p :: rest)
    (hx : s.units[u]? = some x) (hp : p.inputs s.bindings = .error f) : step s = .fault f := by
  rw [step_cons hs, runEvent, driveUnit, withUnit_of_get (s := { s with script := rest }) hx]
  simp only [hp]

/-- Receiving where the outputs hold no response faults (log 9). -/
theorem step_receive_fault {name : Nat} (hs : s.script = .receive u name :: rest)
    (hx : s.units[u]? = some x) (hr : x.response = none) : step s = .fault .noResponse := by
  rw [step_cons hs, runEvent, receiveUnit, withUnit_of_get (s := { s with script := rest }) hx]
  simp only [hr]

/-- Issuing to a busy instance is refused (log 8). -/
theorem step_issue_busy {tx : Inputs} (hs : s.script = .issue u :: rest)
    (hx : s.units[u]? = some x) (ho : x.outstanding = some tx) :
    step s = .refused .instanceBusy := by
  rw [step_cons hs, runEvent, issueUnit, withUnit_of_get (s := { s with script := rest }) hx]
  simp only [ho]

end HostSteps

/-! ### The obligations -/

/-- Settles O2: a word is decoded by its two fields, and they determine the word. -/
theorem decodeAndEncodeAgree : Obligations.DecodeAndEncodeAgree := by
  intro i
  obtain ⟨hwf, hfields⟩ := encoding_statement i
  refine ⟨hfields ▸ hwf, fun cmd => ?_⟩
  rw [decode_eq_ok_iff]
  constructor
  · intro h
    rw [encode, ← h, toByte_ofByte]
  · rintro rfl
    exact hfields

/-- Settles O3: performing is `exec` of the decoded command, and with no event left the first busy instance
performs. -/
theorem stepRunsTheDecodedCommand : Obligations.StepRunsTheDecodedCommand := by
  intro s u x tx i h hi
  refine ⟨fun rest hs => ?_, fun hs hbefore => ?_⟩
  · rw [step_cons hs]
    exact performUnit_eq_exec (s := { s with script := rest }) h hi
  · rw [step_nil hs, drain, firstBusy_eq h hbefore]
    exact performUnit_eq_exec h hi

/-- Settles O35, by the two forms of a response and the four error kinds. -/
theorem statusCodes : Obligations.StatusCodes := by
  refine ⟨status_ok, rfl, rfl, rfl, rfl, fun r => ?_⟩
  cases r with
  | ok v => simp
  | error k => cases k <;> decide

/-- Settles O37: the three sources are read one after the other, each as the value it gives or as its
fault. -/
theorem readingAnAbsentValueFaults : Obligations.ReadingAnAbsentValueFaults := by
  intro s u rest x hx
  refine ⟨fun name hs => ⟨step_receive_fault hs hx, fun r => step_receive hs hx⟩,
    fun cmd a b w hs => ⟨?_, ?_, ?_, ?_⟩⟩
  · intro va vb bytes n ha hb hw
    exact step_drive hs hx (inputs_of_gives ha hb hw)
  · intro f ha
    exact step_drive_fault hs hx (inputs_of_missing_a ha)
  · intro va f ha hb
    exact step_drive_fault hs hx (inputs_of_missing_b ha hb)
  · intro va vb f ha hb hw
    exact step_drive_fault hs hx (inputs_of_missing_window ha hb hw)

/-- Settles O41: an issue looks at what is outstanding. -/
theorem issueSamplesAnIdleInstance : Obligations.IssueSamplesAnIdleInstance := by
  intro s u rest x hs hx
  exact ⟨step_issue hs hx, fun _ => step_issue_busy hs hx⟩

/-- Settles O50: every instance of the reset state is idle and silent. -/
theorem outputsHoldNothingAfterReset : Obligations.OutputsHoldNothingAfterReset := by
  refine ⟨fun x hx => ?_, fun u name rest hu => ?_⟩
  · rw [eq_reset_of_mem hx]
    exact ⟨rfl, rfl⟩
  · refine step_receive_fault rfl (List.getElem?_eq_getElem hu) ?_
    rw [eq_reset_of_mem (List.getElem_mem hu)]
    rfl

end Sys2Proof.Machine
end

section
/-! The statements on runs: a transaction issued again (spec/20_memory.md section 4), reset in the middle of one
(R92, R93), instances that perform in any order (spec/60_exceptions.md section 5), and that every transaction
ends (R98, R99). -/

namespace Sys2Proof.Machine

/-! ### An instance that has performed -/

/-- The instance after a move of its own: it has answered what was outstanding, or it is as it was. -/
def UnitInstance.performed (x : UnitInstance) : UnitInstance :=
  match x.outstanding with
  | some tx => x.answered (respondTo tx)
  | none => x

theorem performed_of_outstanding {x : UnitInstance} {tx : Inputs} (h : x.outstanding = some tx) :
    x.performed = x.answered (respondTo tx) := by
  simp only [UnitInstance.performed, h]

theorem performed_of_idle {x : UnitInstance} (h : x.outstanding = none) : x.performed = x := by
  simp only [UnitInstance.performed, h]

@[simp] theorem performed_outstanding (x : UnitInstance) : x.performed.outstanding = none := by
  cases h : x.outstanding with
  | none => rwa [performed_of_idle h]
  | some tx => rw [performed_of_outstanding h, answered_outstanding]

/-- A second move changes nothing. -/
@[simp] theorem performed_performed (x : UnitInstance) : x.performed.performed = x.performed :=
  performed_of_idle (performed_outstanding x)

/-! ### Instances that perform one after the other -/

/-- The move of an instance, busy or idle, changes that instance alone. -/
theorem step_perform_any {s : State} {u : Nat} {rest : List Event}
    (hs : s.script = .perform u :: rest) (hu : u < s.units.length) :
    ∃ t, step s = .next t ∧ t.script = rest ∧ t.bindings = s.bindings ∧
      t.units = s.units.modify u UnitInstance.performed := by
  have hx : s.units[u]? = some s.units[u] := List.getElem?_eq_getElem hu
  rw [List.modify_eq_set_getElem?, hx]
  cases ho : s.units[u].outstanding with
  | none =>
    refine ⟨_, (step_next_iff hs).mpr (.idle hx ho), rfl, rfl, ?_⟩
    simp [performed_of_idle ho]
  | some tx =>
    refine ⟨_, (step_next_iff hs).mpr (.perform ⟨hx, ho⟩), rfl, rfl, ?_⟩
    simp [performed_of_outstanding ho]

/-- The instance at position `v` after the listed ones have performed. -/
def UnitInstance.afterMoves (us : List Nat) (v : Nat) (x : UnitInstance) : UnitInstance :=
  if v ∈ us then x.performed else x

/-- Only which instances are listed matters, not their order. -/
theorem afterMoves_perm {us us' : List Nat} (h : us.Perm us') :
    UnitInstance.afterMoves us = UnitInstance.afterMoves us' := by
  funext v x
  simp only [UnitInstance.afterMoves, h.mem_iff]

/-- Each listed instance has performed, however often it is listed, and no other has changed. -/
theorem run_performs {s : State} {us : List Nat} (hs : s.script = us.map Event.perform)
    (hus : ∀ u ∈ us, u < s.units.length) :
    ∃ t, core.run us.length s = .next t ∧ t.bindings = s.bindings ∧
      ∀ v, t.units[v]? = s.units[v]?.map (UnitInstance.afterMoves us v) := by
  induction us generalizing s with
  | nil => exact ⟨s, rfl, rfl, fun v => Option.map_id'.symm⟩
  | cons u us ih =>
    obtain ⟨hu, hus⟩ := List.forall_mem_cons.mp hus
    obtain ⟨s', hstep, hscript, hbindings, hunits⟩ := step_perform_any hs hu
    obtain ⟨t, hrun, hbindings', hunits'⟩ := ih hscript (by simpa [hunits] using hus)
    refine ⟨t, run_of_step hstep hrun, hbindings'.trans hbindings, fun v => ?_⟩
    rw [hunits', hunits, List.getElem?_modify]
    cases s.units[v]? with
    | none => simp
    | some x =>
      by_cases hv : u = v
      · subst hv
        by_cases hmem : u ∈ us <;> simp [UnitInstance.afterMoves, hmem]
      · simp [UnitInstance.afterMoves, hv, Ne.symm hv]

/-! ### The machine with no event left -/

/-- No instance is busy exactly where none is the first. -/
theorem firstBusy_eq_none_iff (units : List UnitInstance) :
    firstBusy units = none ↔ ∀ x ∈ units, x.outstanding = none := by
  simp [firstBusy]

/-- The machine with nothing to do stays as it is (log 7). -/
theorem step_of_idle {s : State} (hs : s.script = []) (hidle : s.Idle) : step s = .next s := by
  rw [step_nil hs, drain, (firstBusy_eq_none_iff s.units).mpr hidle]

theorem busyCount_eq_zero_iff (units : List UnitInstance) :
    busyCount units = 0 ↔ ∀ x ∈ units, x.outstanding = none := by
  simp [busyCount]

/-- Where some instance is busy, there is a first that is. -/
theorem exists_firstBusy {s : State} (h : busyCount s.units ≠ 0) :
    ∃ u x tx, firstBusy s.units = some u ∧ Outstanding s u x tx := by
  cases hfirst : firstBusy s.units with
  | none =>
    rw [firstBusy_eq_none_iff, ← busyCount_eq_zero_iff] at hfirst
    exact absurd hfirst h
  | some u =>
    obtain ⟨hu, hbusy, -⟩ := List.findIdx?_eq_some_iff_getElem.mp hfirst
    obtain ⟨tx, htx⟩ := Option.isSome_iff_exists.mp hbusy
    exact ⟨u, _, tx, rfl, List.getElem?_eq_getElem hu, htx⟩

/-- An instance that performs is one fewer that is busy. -/
theorem busyCount_setUnit {s : State} {u : Nat} {x : UnitInstance} {tx : Inputs}
    (h : Outstanding s u x tx) (r : Response) :
    busyCount (s.setUnit u (x.answered r)).units + 1 = busyCount s.units := by
  obtain ⟨hu, hx⟩ := List.getElem?_eq_some_iff.mp h.1
  have hpos : 0 < busyCount s.units :=
    List.countP_pos_iff.mpr ⟨x, List.mem_of_getElem? h.1, by simp [h.2]⟩
  have hset : busyCount (s.setUnit u (x.answered r)).units = busyCount s.units - 1 := by
    simp [busyCount, List.countP_set, hu, hx, h.2]
  rw [hset, Nat.sub_add_cancel hpos]

/-- Once an instance has performed, performing all is the same as before. -/
theorem map_performed_setUnit {s : State} {u : Nat} {x : UnitInstance} {tx : Inputs}
    (h : Outstanding s u x tx) :
    (s.setUnit u (x.answered (respondTo tx))).units.map UnitInstance.performed
      = s.units.map UnitInstance.performed := by
  rw [← performed_of_outstanding h.2]
  exact map_setUnit h.1 (performed_performed x)

/-- Where no instance is busy, performing all changes nothing. -/
theorem map_performed_of_idle {units : List UnitInstance} (h : ∀ x ∈ units, x.outstanding = none) :
    units.map UnitInstance.performed = units :=
  (List.map_congr_left fun x hx => performed_of_idle (h x hx)).trans (List.map_id _)

/-- With no event left, after one step for each busy instance all have performed (log 7). -/
theorem run_drain {s : State} (hs : s.script = []) :
    ∃ t, core.run (busyCount s.units) s = .next t ∧ t.script = [] ∧ t.bindings = s.bindings ∧
      t.units = s.units.map UnitInstance.performed := by
  induction hn : busyCount s.units generalizing s with
  | zero => exact ⟨s, rfl, hs, rfl, (map_performed_of_idle ((busyCount_eq_zero_iff _).mp hn)).symm⟩
  | succ n ih =>
    obtain ⟨u, x, tx, hfirst, h⟩ := exists_firstBusy (s := s) (by omega)
    have hstep : step s = .next ({ s with turn := u }.setUnit u (x.answered (respondTo tx))) := by
      rw [step_nil hs, drain, hfirst]
      exact performUnit_of_outstanding h
    have hcount := busyCount_setUnit (s := { s with turn := u }) h (respondTo tx)
    obtain ⟨t, hrun, hscript, hbindings, hunits⟩ := ih
      (s := { s with turn := u }.setUnit u (x.answered (respondTo tx))) hs (Nat.succ.inj (hcount.trans hn))
    exact ⟨t, run_of_step hstep hrun, hscript, hbindings,
      hunits.trans (map_performed_setUnit (s := { s with turn := u }) h)⟩

/-! ### An instance cut off by reset or issued to -/

/-- A run ends where its first step faults. -/
theorem coreRun_of_fault {M : Host.Core} {s : M.State} {f : M.Fault} {k : Nat}
    (h : M.step s = .fault f) : M.run (k + 1) s = .fault f := by
  rw [Host.Core.run, h]

/-- An idle instance issued and performed answers its ports. -/
theorem run_issuePerform {s : State} {u : Nat} {rest : List Event} {x : UnitInstance}
    (hs : s.script = .issue u :: .perform u :: rest) (hx : s.units[u]? = some x)
    (ho : x.outstanding = none) :
    core.run 2 s = .next ({ s with script := rest, turn := u }.setUnit u
      (x.answered (respondTo x.ports))) := by
  refine run_of_step (step_issue hs hx ho) (run_of_step (k := 0)
    (step_perform rfl ⟨setUnit_get_self hx, issued_outstanding _⟩)
    (congrArg Host.Outcome.next ?_))
  simp only [State.setUnit, List.set_set]
  rfl

/-- The moves of an idle instance change nothing but the script (log 6). -/
theorem run_idleMoves {s : State} {u n : Nat} {rest : List Event} {x : UnitInstance}
    (hs : s.script = List.replicate n (.perform u) ++ rest) (hx : s.units[u]? = some x)
    (ho : x.outstanding = none) : core.run n s = .next { s with script := rest } := by
  induction n generalizing s with
  | zero =>
    obtain rfl : s.script = rest := hs
    rfl
  | succ n ih =>
    have hstep := (step_next_iff (rest := List.replicate n (.perform u) ++ rest) hs).mpr (.idle hx ho)
    exact run_of_step hstep (ih rfl hx)

/-! ### The obligations -/

/-- Settles O44: the perform leaves the ports, so the issue after it samples the same transaction. -/
theorem repeatedTransactionGivesTheSameResponse :
    Obligations.RepeatedTransactionGivesTheSameResponse := by
  intro s u rest x hs h
  have hfirst := step_perform hs h
  have hget := setUnit_get_self (s := { s with script := .issue u :: .perform u :: rest, turn := u })
    (x := x.answered (respondTo x.ports)) h.1
  have hagain := run_issuePerform rfl hget (answered_outstanding x _)
  refine ⟨_, _, respondTo x.ports, run_one_of_step hfirst, run_of_step hfirst hagain, rfl, ?_, rfl, rfl⟩
  simp only [setUnit_units, List.set_set]
  rfl

/-- Settles O47: which instances have performed does not depend on the order. -/
theorem instancesPerformInAnyOrder : Obligations.InstancesPerformInAnyOrder := by
  intro s us us' hperm hus
  obtain ⟨t, hrun, hbindings, hunits⟩ := run_performs (s := { s with script := us.map .perform }) rfl hus
  obtain ⟨t', hrun', hbindings', hunits'⟩ := run_performs (s := { s with script := us'.map .perform })
    rfl fun u hu => hus u (hperm.mem_iff.mpr hu)
  refine ⟨t, t', hrun, hperm.length_eq ▸ hrun', List.ext_getElem? fun v => ?_,
    hbindings.trans hbindings'.symm, fun u x tx hu h => ?_⟩
  · rw [hunits, hunits', afterMoves_perm hperm]
  · rw [hunits, h.1, Option.map_some, UnitInstance.afterMoves, if_pos hu,
      performed_of_outstanding h.2]

/-- Settles O48: the reset leaves the unit idle with its ports, and an issue samples them. -/
theorem resetLeavesTheInstanceReady : Obligations.ResetLeavesTheInstanceReady := by
  intro s u rest x hs hx
  have hreset := step_reset hs hx
  refine ⟨hreset, ?_⟩
  rintro rest' rfl
  have hget := setUnit_get_self (s := { s with script := .issue u :: rest' }) (x := x.wasReset) hx
  exact ⟨_, x.wasReset.issued, run_of_step hreset (run_one_of_step (step_issue rfl hget rfl)),
    setUnit_get_self hget, rfl⟩

/-- Settles O49: after the reset the unit is idle and silent, and its moves change nothing. -/
theorem resetCutsOffTheTransaction : Obligations.ResetCutsOffTheTransaction := by
  intro s u n name x tx h
  refine ⟨fun rest hs => ?_, fun rest hs => ?_⟩
  · have hreset := step_reset hs h.1
    have hget := setUnit_get_self (s := { s with script := .receive u name :: rest })
      (x := x.wasReset) h.1
    have hmoves := run_of_step hreset (run_idleMoves (n := n) rfl hget rfl)
    exact ⟨⟨_, x.wasReset, hmoves, hget, rfl, rfl⟩,
      run_append (k := 1) hmoves (coreRun_of_fault (M := core) (step_receive_fault rfl hget rfl))⟩
  · have hreset := step_reset hs h.1
    have hget := setUnit_get_self (s := { s with script := .issue u :: .perform u :: rest })
      (x := x.wasReset) h.1
    exact ⟨_, _, run_of_step hreset (run_issuePerform rfl hget rfl), setUnit_get_self hget, rfl⟩

/-- Settles O54: after the steps of `run_drain` every instance has performed and none is busy. -/
theorem everyTransactionEnds : Obligations.EveryTransactionEnds := by
  intro s hs
  obtain ⟨t, hrun, hscript, hbindings, hunits⟩ := run_drain hs
  have hidle : t.Idle := by
    intro x hx
    rw [hunits] at hx
    obtain ⟨y, -, rfl⟩ := List.mem_map.mp hx
    exact performed_outstanding y
  refine ⟨t, hrun, step_of_idle hscript hidle, hscript, hbindings, by simp [hunits],
    fun u x hx => ⟨fun tx ho => ?_, fun ho => ?_⟩⟩
  · rw [hunits, List.getElem?_map, hx, Option.map_some, performed_of_outstanding ho]
  · rw [hunits, List.getElem?_map, hx, Option.map_some, performed_of_idle ho]

end Sys2Proof.Machine
end
